-- ==== Sys2Proof/Word.lean ====
section
/-!
DEFINITION. The machine's words: bytes, 32-bit words and 16-byte blocks (00_scope.md R10).
-/
namespace Sys2Proof

/-- A byte: 8 bits, bit 0 the least significant (00_scope.md R10). -/
abbrev Byte := BitVec 8

/-- A 32-bit word: a command word (30_encoding.md R70) or an AES word (40_aes_core.md R105). -/
abbrev Word := BitVec 32

/-- A block of 16 bytes `b[0] .. b[15]`, held as the 128-bit number whose most significant byte is
`b[0]`, the first byte in stream order (00_scope.md R10; 20_memory.md R53 reads a block the same
way; log entry 15). -/
abbrev Block := BitVec 128

end Sys2Proof
end

