-- ==== Sys2Proof/Syntax.lean ====
section
/-!
DEFINITION. The commands of the block and the enumerations their fields carry
(30_encoding.md R71-R78).
-/
namespace Sys2Proof

/-- The engine kind `ENG` (10_state.md R23). -/
inductive Engine where
  | ctr
  | cbc
  deriving DecidableEq, Repr

/-- The padding scheme `PAD` (10_state.md R24). The code 3 names no scheme (30_encoding.md R86). -/
inductive Padding where
  | none
  | pkcs5
  | cipherTextStealing
  deriving DecidableEq, Repr

/-- The IV persistence mode `PERS` (10_state.md R25). -/
inductive Persistence where
  | rollingPerUnit
  | persistAcrossCalls
  deriving DecidableEq, Repr

/-- A command with its operands. The length fields `KLEN`, `IVLEN` and `LEN` are the lengths of the
byte strings (30_encoding.md R75, R77, R78, R88). -/
inductive Instr where
  /-- CONSTRUCT, format C (30_encoding.md R72, R75). -/
  | construct (eng : Engine) (pad : Padding) (pers : Persistence) (key iv : List Byte)
  /-- SET_IV, format S (30_encoding.md R73, R77). -/
  | setIv (iv : List Byte)
  /-- CRYPT, format X: the output capacity `CAP` and the input stream `In` (30_encoding.md R74, R78). -/
  | crypt (cap : BitVec 64) (data : List Byte)
  deriving DecidableEq, Repr

end Sys2Proof
end

