-- ==== Sys2Proof/WellFormed.lean ====
section
/-!
DEFINITION. Which commands the encoding can express: the byte strings fit their length fields
(30_encoding.md R75, R78, R88). A length that is legal to encode but that CONSTRUCT or SET_IV
rejects is well-formed (30_encoding.md R85).
-/
namespace Sys2Proof

/-- A key or an IV fits its 6-bit length field (30_encoding.md R72, R73). -/
def fitsSixBits (bytes : List Byte) : Bool := decide (bytes.length ≤ 63)

/-- An input stream fits the 32-bit `LEN` (30_encoding.md R74). -/
def fitsLen (bytes : List Byte) : Bool := decide (bytes.length < 2 ^ 32)

/-- The command has an encoding. -/
def Instr.wf : Instr → Bool
  | .construct _ _ _ key iv => fitsSixBits key && fitsSixBits iv
  | .setIv iv => fitsSixBits iv
  | .crypt _ data => fitsLen data

end Sys2Proof
end

