-- ==== Sys2Proof/Decode.lean ====
section
/-!
DEFINITION. The decoder and the encoder of command records (30_encoding.md). A record is the bytes
of one command as a byte transport carries them: the command word, the operand words, the payload
(R70), every word least significant byte first (20_memory.md R55).
-/
namespace Sys2Proof

/-! ### Words on a byte transport -/

/-- The number whose bytes, least significant first, are these (20_memory.md R55). -/
def ofLE : List Byte → Nat
  | [] => 0
  | b :: rest => b.toNat + 256 * ofLE rest

/-- The `n` bytes of a number, least significant first (20_memory.md R55). -/
def leBytes : Nat → Nat → List Byte
  | 0, _ => []
  | n + 1, v => BitVec.ofNat 8 v :: leBytes n (v / 256)

/-- The first `n` bytes and the rest, if there are `n`. -/
def takeBytes (n : Nat) (bytes : List Byte) : Option (List Byte × List Byte) :=
  if n ≤ bytes.length then some (bytes.take n, bytes.drop n) else none

/-- The 32-bit word at the head of the bytes, and the rest. -/
def takeWord (bytes : List Byte) : Option (Word × List Byte) :=
  match takeBytes 4 bytes with
  | some (w, rest) => some (BitVec.ofNat 32 (ofLE w), rest)
  | none => none

/-! ### The fields of a command word (30_encoding.md R71-R74) -/

/-- `OP = CW[3:0]` (R71). -/
def cwOp (cw : Word) : BitVec 4 := cw.extractLsb' 0 4

/-- `ENG = CW[4]` (R72). -/
def cwEng (cw : Word) : BitVec 1 := cw.extractLsb' 4 1

/-- `PAD = CW[6:5]` (R72). -/
def cwPad (cw : Word) : BitVec 2 := cw.extractLsb' 5 2

/-- `PERS = CW[7]` (R72). -/
def cwPers (cw : Word) : BitVec 1 := cw.extractLsb' 7 1

/-- `KLEN = CW[13:8]` (R72). -/
def cwKlen (cw : Word) : BitVec 6 := cw.extractLsb' 8 6

/-- `IVLEN = CW[19:14]` (R72, R73). -/
def cwIvlen (cw : Word) : BitVec 6 := cw.extractLsb' 14 6

/-- `CW[31:20]`, reserved in formats C and S (R84). -/
def cwHigh (cw : Word) : BitVec 12 := cw.extractLsb' 20 12

/-- `CW[13:4]`, reserved in format S (R84). -/
def cwMid (cw : Word) : BitVec 10 := cw.extractLsb' 4 10

/-- `CW[31:4]`, reserved in format X (R84). -/
def cwAboveOp (cw : Word) : BitVec 28 := cw.extractLsb' 4 28

/-! ### The enumerated fields (30_encoding.md R76) -/

/-- `ENG` 0 is CTR, 1 is CBC. -/
def engineOfBits (b : BitVec 1) : Engine := if b = 0 then .ctr else .cbc

/-- The code of an engine. -/
def engineBits : Engine → BitVec 1
  | .ctr => 0
  | .cbc => 1

/-- `PAD` 0 is None, 1 Pkcs5, 2 CipherTextStealing; 3 is reserved (R86). -/
def paddingOfBits (b : BitVec 2) : Option Padding :=
  if b = 0 then some .none
  else if b = 1 then some .pkcs5
  else if b = 2 then some .cipherTextStealing
  else Option.none

/-- The code of a padding scheme. -/
def paddingBits : Padding → BitVec 2
  | .none => 0
  | .pkcs5 => 1
  | .cipherTextStealing => 2

/-- `PERS` 0 is RollingPerUnit, 1 PersistAcrossCalls. -/
def persistenceOfBits (b : BitVec 1) : Persistence :=
  if b = 0 then .rollingPerUnit else .persistAcrossCalls

/-- The code of a persistence mode. -/
def persistenceBits : Persistence → BitVec 1
  | .rollingPerUnit => 0
  | .persistAcrossCalls => 1

/-! ### The decoder -/

/-- Why a record names no command. The first three are the decoder's checks of 30_encoding.md R81;
the block answers them with `IllegalCommand`. The last is a record that is not whole (R70): it has
fewer bytes than its own fields ask for (R79), and the block has no step for it. -/
inductive DecodeError where
  | reservedOpcode
  | reservedBits
  | reservedPad
  | incomplete
  deriving DecidableEq, Repr

/-- Format C after its opcode: the reserved bits, then `PAD`, then the payload `key ++ iv`
(30_encoding.md R72, R75, R81). -/
def decodeConstruct (cw : Word) (payload : List Byte) : Except DecodeError (Instr × List Byte) :=
  if cwHigh cw ≠ 0 then .error .reservedBits
  else
    match paddingOfBits (cwPad cw) with
    | none => .error .reservedPad
    | some pad =>
      match takeBytes (cwKlen cw).toNat payload with
      | none => .error .incomplete
      | some (key, afterKey) =>
        match takeBytes (cwIvlen cw).toNat afterKey with
        | none => .error .incomplete
        | some (iv, rest) =>
          .ok (.construct (engineOfBits (cwEng cw)) pad (persistenceOfBits (cwPers cw)) key iv, rest)

/-- Format S after its opcode: the reserved bits, then the payload `iv` (30_encoding.md R73, R77, R81). -/
def decodeSetIv (cw : Word) (payload : List Byte) : Except DecodeError (Instr × List Byte) :=
  if cwMid cw ≠ 0 ∨ cwHigh cw ≠ 0 then .error .reservedBits
  else
    match takeBytes (cwIvlen cw).toNat payload with
    | none => .error .incomplete
    | some (iv, rest) => .ok (.setIv iv, rest)

/-- Format X after its opcode: the reserved bits, then `LEN`, `CAP` and `LEN` input bytes
(30_encoding.md R74, R78, R81). -/
def decodeCrypt (cw : Word) (operands : List Byte) : Except DecodeError (Instr × List Byte) :=
  if cwAboveOp cw ≠ 0 then .error .reservedBits
  else
    match takeBytes 4 operands with
    | none => .error .incomplete
    | some (len, afterLen) =>
      match takeBytes 8 afterLen with
      | none => .error .incomplete
      | some (cap, payload) =>
        match takeBytes (ofLE len) payload with
        | none => .error .incomplete
        | some (data, rest) => .ok (.crypt (BitVec.ofNat 64 (ofLE cap)) data, rest)

/-- The decoder (30_encoding.md R81): total on any bytes. It answers the command with the bytes that
follow it in the record, or why there is none. -/
def decode (bytes : List Byte) : Except DecodeError (Instr × List Byte) :=
  match takeWord bytes with
  | none => .error .incomplete
  | some (cw, rest) =>
    if cwOp cw = 1 then decodeConstruct cw rest
    else if cwOp cw = 2 then decodeSetIv cw rest
    else if cwOp cw = 3 then decodeCrypt cw rest
    else .error .reservedOpcode

/-! ### The encoder -/

/-- The command word (30_encoding.md R72-R74). -/
def commandWord : Instr → Word
  | .construct eng pad pers key iv =>
    (0 : BitVec 12) ++ BitVec.ofNat 6 iv.length ++ BitVec.ofNat 6 key.length ++
      persistenceBits pers ++ paddingBits pad ++ engineBits eng ++ (1 : BitVec 4)
  | .setIv iv => (0 : BitVec 12) ++ BitVec.ofNat 6 iv.length ++ (0 : BitVec 10) ++ (2 : BitVec 4)
  | .crypt _ _ => (0 : BitVec 28) ++ (3 : BitVec 4)

/-- The operand words: `LEN` and `CAP` of CRYPT, none for the others (30_encoding.md R74). -/
def operandWords : Instr → List Byte
  | .construct _ _ _ _ _ => []
  | .setIv _ => []
  | .crypt cap data => leBytes 4 data.length ++ leBytes 8 cap.toNat

/-- The payload (30_encoding.md R75, R77, R78). -/
def payloadOf : Instr → List Byte
  | .construct _ _ _ key iv => key ++ iv
  | .setIv iv => iv
  | .crypt _ data => data

/-- The record of a command, as a byte transport carries it (30_encoding.md R70, 20_memory.md R55). -/
def encode (i : Instr) : List Byte :=
  leBytes 4 (commandWord i).toNat ++ operandWords i ++ payloadOf i

/-- The length in bytes of a record whose bytes begin so (30_encoding.md R79). For a reserved opcode
the length is unknown (R87); the command word alone is counted. -/
def recordLength (bytes : List Byte) : Nat :=
  let cw : Word := BitVec.ofNat 32 (ofLE (bytes.take 4))
  if cwOp cw = 1 then 4 + (cwKlen cw).toNat + (cwIvlen cw).toNat
  else if cwOp cw = 2 then 4 + (cwIvlen cw).toNat
  else if cwOp cw = 3 then 4 + 4 + 8 + ofLE ((bytes.drop 4).take 4)
  else 4

/-- The record whose first `nbits` bits are those of `w`, the command word first and bit 0 the least
significant bit of its first byte, and whose further bits are 0. -/
def tableRecord (nbits w : Nat) : List Byte :=
  let given := leBytes (nbits / 8) w
  given ++ List.replicate (recordLength given - given.length) 0

/-- The command the decoder reads from a record laid out by `tableRecord`. -/
def decodeTableWord (nbits w : Nat) : Option Instr :=
  match decode (tableRecord nbits w) with
  | .ok (i, _) => some i
  | .error _ => none

/-! ### Pseudo-commands (30_encoding.md R89) -/

/-- `CONSTRUCT_CTR key=<k>, iv=<v>`. -/
def pseudoConstructCtr (key iv : List Byte) : Instr :=
  .construct .ctr .none .rollingPerUnit key iv

/-- `CONSTRUCT_CBC <pad>, key=<k>, iv=<v>`. -/
def pseudoConstructCbc (pad : Padding) (key iv : List Byte) : Instr :=
  .construct .cbc pad .rollingPerUnit key iv

/-- `CRYPT data=<d>`: a capacity no configuration exceeds. -/
def pseudoCrypt (data : List Byte) : Instr :=
  .crypt (BitVec.ofNat 64 (data.length + 16)) data

end Sys2Proof
end

