-- ==== Sys2Proof/Machine/Block.lean ====
section
/-!
DEFINITION. Blocks and words as sequences of bytes (00_scope.md R10, 40_aes_core.md R105), and the
one helper that makes the kernel evaluate a block before it goes on.
-/
namespace Sys2Proof.Machine

/-- `k` applied to `b`. It is the application `k b` (lemma `withValue_eq`), written so that an
evaluator computes the bits of `b` first and `k` receives a literal. -/
def withValue {n : Nat} {α : Type} (b : BitVec n) (k : BitVec n → α) : α :=
  match b.toNat with
  | 0 => k 0
  | m + 1 => k (BitVec.ofNat n (m + 1))

/-- `b[i]`, the `i`-th byte of a block in stream order, for `i < 16` (00_scope.md R10). -/
def blockByte (b : Block) (i : Nat) : Byte := b.extractLsb' (8 * (15 - i)) 8

/-- The block whose byte `i` is `f i`. -/
def blockOfFn (f : Nat → Byte) : Block :=
  f 0 ++ f 1 ++ f 2 ++ f 3 ++ f 4 ++ f 5 ++ f 6 ++ f 7 ++
    f 8 ++ f 9 ++ f 10 ++ f 11 ++ f 12 ++ f 13 ++ f 14 ++ f 15

/-- The block of 16 bytes in stream order. -/
def blockOfBytes (bytes : List Byte) : Block := blockOfFn fun i => bytes.getD i 0

/-- The 16 bytes of a block in stream order. -/
def blockBytes (b : Block) : List Byte := (List.range 16).map (blockByte b)

/-- The bytes of a sequence of blocks. -/
def blocksBytes (bs : List Block) : List Byte := bs.flatMap blockBytes

/-- The first `n` complete blocks of a stream, `P_k = In[16k : 16k + 16)` (43_cbc_engine.md R200). -/
def blocksOf : Nat → List Byte → List Block
  | 0, _ => []
  | n + 1, bytes => blockOfBytes (bytes.take 16) :: blocksOf n (bytes.drop 16)

/-- `w[i]`, byte `i` of an AES word, `w[0]` its most significant byte (40_aes_core.md R105). -/
def wordByte (w : Word) (i : Nat) : Byte := w.extractLsb' (8 * (3 - i)) 8

/-- The AES word `(a0, a1, a2, a3)` (40_aes_core.md R105). -/
def wordOfBytes (a0 a1 a2 a3 : Byte) : Word := a0 ++ a1 ++ a2 ++ a3

end Sys2Proof.Machine
end

