-- ==== Sys2Proof/Machine/Aes.lean ====
section
/-!
DEFINITION. The AES core: field arithmetic, S-box, key expansion and forward cipher
(40_aes_core.md R100-R117; the algorithm is FIPS-197, which the spec supplies from general knowledge,
log entry 13). The AES State is a block: `s[r][c]` is byte `r + 4c` (R105).
-/
namespace Sys2Proof.Machine

/-! ### Finite-field arithmetic -/

/-- Multiplication by `x` modulo `m(x)` (40_aes_core.md R101). -/
def xtime (b : Byte) : Byte := (b <<< 1) ^^^ (if b.getLsbD 7 then 0x1b else 0x00)

/-- One turn of the loop of `gmul`, on `r` and `a`. -/
def gmulStep (b : Byte) (p : Byte × Byte) (i : Nat) : Byte × Byte :=
  (if b.getLsbD i then p.1 ^^^ p.2 else p.1, xtime p.2)

/-- Multiplication in GF(2^8) (40_aes_core.md R102). -/
def gmul (a b : Byte) : Byte := ((List.range 8).foldl (gmulStep b) (0, a)).1

/-- `a^n` in GF(2^8). -/
def gpow (a : Byte) : Nat → Byte
  | 0 => 1
  | n + 1 => gmul (gpow a n) a

/-- The multiplicative inverse, `a^254`; `inv(00) = 00` (40_aes_core.md R103). -/
def ginv (a : Byte) : Byte := gpow a 254

/-! ### The S-box -/

/-- The affine map of the S-box on `b = inv(a)` (40_aes_core.md R104). -/
def sboxAffine (b : Byte) : Byte :=
  b ^^^ b.rotateLeft 1 ^^^ b.rotateLeft 2 ^^^ b.rotateLeft 3 ^^^ b.rotateLeft 4 ^^^ 0x63

/-- The table of 40_aes_core.md R104: row `h` holds `S(16 h) .. S(16 h + 15)`. -/
def sboxRows : List Block :=
  [0x637c777bf26b6fc53001672bfed7ab76, 0xca82c97dfa5947f0add4a2af9ca472c0,
   0xb7fd9326363ff7cc34a5e5f171d83115, 0x04c723c31896059a071280e2eb27b275,
   0x09832c1a1b6e5aa0523bd6b329e32f84, 0x53d100ed20fcb15b6acbbe394a4c58cf,
   0xd0efaafb434d338545f9027f503c9fa8, 0x51a3408f929d38f5bcb6da2110fff3d2] ++
  [0xcd0c13ec5f974417c4a77e3d645d1973, 0x60814fdc222a908846eeb814de5e0bdb,
   0xe0323a0a4906245cc2d3ac629195e479, 0xe7c8376d8dd54ea96c56f4ea657aae08,
   0xba78252e1ca6b4c6e8dd741f4bbd8b8a, 0x703eb5664803f60e613557b986c11d9e,
   0xe1f8981169d98e949b1e87e9ce5528df, 0x8ca1890dbfe6426841992d0fb054bb16]

/-- `S(a)`: the row is the high hex digit of `a`, the column the low one (40_aes_core.md R104). -/
def sbox (a : Byte) : Byte :=
  blockByte (sboxRows.getD (a.extractLsb' 4 4).toNat 0) (a.extractLsb' 0 4).toNat

/-! ### Key schedule -/

/-- `RC[j]`, with `RC[1] = 0x01` and `RC[j] = xtime(RC[j-1])` (40_aes_core.md R107). -/
def roundConstant : Nat → Byte
  | 0 => 0x00
  | 1 => 0x01
  | j + 2 => xtime (roundConstant (j + 1))

/-- `Rcon[j] = (RC[j], 00, 00, 00)` (40_aes_core.md R107). -/
def rcon (j : Nat) : Word := wordOfBytes (roundConstant j) 0 0 0

/-- `RotWord` (40_aes_core.md R109). -/
def rotWord (w : Word) : Word := wordOfBytes (wordByte w 1) (wordByte w 2) (wordByte w 3) (wordByte w 0)

/-- `SubWord` (40_aes_core.md R109). -/
def subWord (w : Word) : Word :=
  wordOfBytes (sbox (wordByte w 0)) (sbox (wordByte w 1)) (sbox (wordByte w 2)) (sbox (wordByte w 3))

/-- What KeyExpansion XORs into `w[i-Nk]` to give `w[i]`, from `w[i-1]` (40_aes_core.md R108). -/
def scheduleTemp (nk i : Nat) (previous : Word) : Word :=
  if i % nk = 0 then subWord (rotWord previous) ^^^ rcon (i / nk)
  else if 6 < nk ∧ i % nk = 4 then subWord previous
  else previous

/-- `w[i]` from the words `w[0] .. w[i-1]` (40_aes_core.md R108). -/
def nextScheduleWord (nk : Nat) (w : List Word) : Word :=
  w.getD (w.length - nk) 0 ^^^ scheduleTemp nk w.length (w.getD (w.length - 1) 0)

/-- `n` more words of the schedule. -/
def extendSchedule (nk : Nat) : Nat → List Word → List Word
  | 0, w => w
  | n + 1, w => withValue (nextScheduleWord nk w) fun next => extendSchedule nk n (w ++ [next])

/-- The key as `Nk` words (40_aes_core.md R108). -/
def keyWords (nk : Nat) (key : List Byte) : List Word :=
  (List.range nk).map fun i =>
    wordOfBytes (key.getD (4 * i) 0) (key.getD (4 * i + 1) 0) (key.getD (4 * i + 2) 0)
      (key.getD (4 * i + 3) 0)

/-- `Nk = KLEN / 4` (40_aes_core.md R106). -/
def nkOf (klen : Nat) : Nat := klen / 4

/-- `Nr = Nk + 6` (40_aes_core.md R106). -/
def nrOf (klen : Nat) : Nat := nkOf klen + 6

/-- KeyExpansion (40_aes_core.md R108). -/
def keyExpansion (key : List Byte) : List Word :=
  extendSchedule (nkOf key.length) (4 * (nrOf key.length + 1) - nkOf key.length)
    (keyWords (nkOf key.length) key)

/-! ### The round function -/

/-- `s[r][c]` (40_aes_core.md R105). -/
def cell (s : Block) (r c : Nat) : Byte := blockByte s (r + 4 * c)

/-- The State whose cell `[r][c]` is `f r c` (40_aes_core.md R105). -/
def ofCells (f : Nat → Nat → Byte) : Block := blockOfFn fun i => f (i % 4) (i / 4)

/-- AddRoundKey (40_aes_core.md R112). -/
def addRoundKey (rk : List Word) (s : Block) (r : Nat) : Block :=
  ofCells fun row c => cell s row c ^^^ wordByte (rk.getD (4 * r + c) 0) row

/-- SubBytes (40_aes_core.md R113). -/
def subBytes (s : Block) : Block := ofCells fun r c => sbox (cell s r c)

/-- ShiftRows (40_aes_core.md R114). -/
def shiftRows (s : Block) : Block := ofCells fun r c => cell s r ((c + r) % 4)

/-- Cell `r` of a mixed column: `02 • a_r ⊕ 03 • a_{r+1} ⊕ a_{r+2} ⊕ a_{r+3}`, indices modulo 4
(40_aes_core.md R115). -/
def mixCell (s : Block) (r c : Nat) : Byte :=
  xtime (cell s r c) ^^^ (xtime (cell s ((r + 1) % 4) c) ^^^ cell s ((r + 1) % 4) c) ^^^
    cell s ((r + 2) % 4) c ^^^ cell s ((r + 3) % 4) c

/-- MixColumns (40_aes_core.md R115). -/
def mixColumns (s : Block) : Block := ofCells (mixCell s)

/-- `Round(s, r)` (40_aes_core.md R116). -/
def aesRound (rk : List Word) (s : Block) (r : Nat) : Block :=
  addRoundKey rk (mixColumns (shiftRows (subBytes s))) r

/-- `FinalRound(s)`, with `Nr` the number of its round key (40_aes_core.md R116). -/
def aesFinalRound (rk : List Word) (nr : Nat) (s : Block) : Block :=
  addRoundKey rk (shiftRows (subBytes s)) nr

/-- `n` rounds, the first of them round `r` (40_aes_core.md R117). -/
def aesRounds (rk : List Word) : Nat → Nat → Block → Block
  | 0, _, s => s
  | n + 1, r, s => withValue (aesRound rk s r) fun next => aesRounds rk n (r + 1) next

/-- `AES_Encrypt(RK, in)` (40_aes_core.md R117). -/
def aesEncrypt (rk : List Word) (nr : Nat) (block : Block) : Block :=
  withValue block fun input =>
    withValue (addRoundKey rk input 0) fun s => aesFinalRound rk nr (aesRounds rk (nr - 1) 1 s)

end Sys2Proof.Machine
end

