-- ==== Sys2Proof/Config.lean ====
section
/-!
DEFINITION. The parameters the spec leaves OPEN (00_scope.md R9) and the values it leaves
unconstrained (93_implementation_defined.md Part 1). An opaque constant has no value a proof can use.
-/
namespace Sys2Proof

/-- How many instances the block has beyond the first. OPEN (00_scope.md R9, 92 D25; log entry 5). -/
opaque Config.extraInstances : Nat

/-- `N_INSTANCES`, a positive natural number (00_scope.md R9). -/
def Config.instanceCount : Nat := Config.extraInstances + 1

/-- `KEY_ID_LEN`, in bytes. OPEN (00_scope.md R9, 44_metadata.md R241; log entry 19). -/
opaque Config.keyIdLen : Nat

/-- `MAX_SUBSAMPLES` (00_scope.md R9, 92 D26). -/
def Config.maxSubsamples : Nat := 65535

/-- FREE VALUE: byte `i` of the host's output buffer after the response number `n`, where that
response is a CapacityError (60_exceptions.md R274, 93 U4; log entry 21). -/
opaque Config.freeHostByte : Nat → Nat → Byte

/-- FREE VALUE: whether block `k` is encrypted under a pattern with `N + M = 0`, which the source
does not settle (44_metadata.md R249, 93 U16; log entry 20). -/
opaque Config.emptyPatternEncrypts : Nat → Bool

end Sys2Proof
end

