-- ==== Sys2Proof/Machine/State.lean ====
section
/-!
DEFINITION. The state of the block: the registers of each instance (10_state.md), the responses it
has returned (30_encoding.md R80) and the host's commands still to be performed.
-/
namespace Sys2Proof.Machine

/-! ### Registers, errors and responses -/

/-- The registers that can hold no value (10_state.md R34). -/
inductive Reg where
  | eng
  | pad
  | pers
  | klen
  | nk
  | nr
  | rk
  | ivr
  | cb
  | off
  | ks
  | cv
  deriving DecidableEq, Repr

/-- The architected errors, one for each row of the table of causes (60_exceptions.md R272). An
error is a normal outcome of a step (R282). -/
inductive CommandError where
  | keyLength
  | ctrPadding
  | ctrPersist
  | padPersist
  | ivEmpty
  | ivTooLong
  | capacity
  | notConstructed
  | ivNotValid
  | reservedOpcode
  | reservedBits
  | reservedPad
  deriving DecidableEq, Repr

/-- The response to one command (30_encoding.md R80): `STATUS`, `OUTLEN` and the bytes of `Out`. -/
structure Response where
  status : BitVec 8
  outLen : BitVec 64
  out : List Byte
  deriving DecidableEq, Repr

/-- A response with the instance that returned it. -/
structure Answer where
  inst : Nat
  resp : Response
  deriving DecidableEq, Repr

/-- What the outside world does to the block: it delivers one whole command record to one instance
(30_encoding.md R70, 60_exceptions.md R287), or resets the block (70_reset_and_hazards.md R300). -/
inductive HostEvent where
  | command (inst : Nat) (record : List Byte)
  | platformReset
  deriving DecidableEq, Repr

/-! ### State -/

/-- The registers of one instance, and nothing else (10_state.md R20-R31). `none` is the spec's
"no value" (R20). -/
structure Instance where
  /-- `CONFIGURED` (R21). -/
  configured : Bool
  /-- `IV_VALID` (R22). -/
  ivValid : Bool
  /-- `ENG` (R23). -/
  eng : Option Engine
  /-- `PAD` (R24). -/
  pad : Option Padding
  /-- `PERS` (R25). -/
  pers : Option Persistence
  /-- `KLEN` (R26). -/
  klen : Option (BitVec 6)
  /-- `Nk` (R26). -/
  nk : Option (BitVec 4)
  /-- `Nr` (R26). -/
  nr : Option (BitVec 4)
  /-- `RK`, the words `w[0] .. w[4*Nr+3]` (R26). -/
  rk : Option (List Word)
  /-- `IVR` (R27). -/
  ivr : Option Block
  /-- `CB` (R28). -/
  cb : Option Block
  /-- `OFF` (R29). -/
  off : Option (BitVec 4)
  /-- `KS` (R30). -/
  ks : Option Block
  /-- `CV` (R31). -/
  cv : Option Block
  deriving DecidableEq, Repr

/-- The reset value of every register (10_state.md R34). -/
def Instance.reset : Instance where
  configured := false
  ivValid := false
  eng := none
  pad := none
  pers := none
  klen := none
  nk := none
  nr := none
  rk := none
  ivr := none
  cb := none
  off := none
  ks := none
  cv := none

/-- The state of the block and of its interface. -/
structure State where
  /-- The instances by index, sparse: indices strictly rising, and an instance that is not listed is
  in the reset state (60_exceptions.md R287; log entry 5). -/
  instances : List (Nat × Instance)
  /-- The instance the current command is issued to (60_exceptions.md R287; log entry 2). -/
  sel : Nat
  /-- The host's commands and resets not yet performed, oldest first (10_state.md R33; log entry 1). -/
  input : List HostEvent
  /-- The responses returned, oldest first (30_encoding.md R80; log entry 3). -/
  responses : List Answer
  deriving DecidableEq, Repr

/-- The block right after reset (70_reset_and_hazards.md R300): every instance in its reset state,
nothing delivered, nothing returned. -/
def State.reset : State where
  instances := []
  sel := 0
  input := []
  responses := []

/-! ### How a step can stop -/

/-- Why the machine stops with a fault. -/
inductive Fault where
  /-- A rule read a register that holds no value: the one model fault the spec gives the machine
  (10_state.md R20, 60_exceptions.md R282). Raised by the commands through `need`. Safe: 10_state.md
  R37 makes it unreachable from reset. -/
  | noValue (r : Reg)
  deriving DecidableEq, Repr

/-- Why the machine has no meaning for what was delivered. -/
inductive Refusal where
  /-- The command has no meaning yet. Raised by an arm of `exec` only. Safe. -/
  | notModelled (mnemonic : String)
  /-- The command is issued to an instance the block does not have, an input with no step
  (60_exceptions.md R287; log entry 6). Raised by every command through `perform`. Safe. -/
  | noSuchInstance (index : Nat)
  /-- The record has fewer bytes than its length fields say, so the host has not delivered a whole
  command (30_encoding.md R70, R79; log entry 8). Raised by `step`. Safe. -/
  | incompleteRecord
  deriving DecidableEq, Repr

/-- The outcome of a command or of a step. -/
abbrev Result := Host.Outcome State Fault Refusal

end Sys2Proof.Machine
end

