-- ==== Sys2Proof/Machine/Flags.lean ====
section
/-!
DEFINITION. The status byte of a response: status codes and causes (30_encoding.md R80,
60_exceptions.md R271, R272). The block has no condition flags (10_state.md R33).
-/
namespace Sys2Proof.Machine

/-- `STATUS[3:0]` of an error (60_exceptions.md R271). -/
def errorCode : CommandError → BitVec 4
  | .keyLength => 1
  | .ctrPadding => 1
  | .ctrPersist => 1
  | .padPersist => 1
  | .ivEmpty => 1
  | .ivTooLong => 1
  | .capacity => 2
  | .notConstructed => 3
  | .ivNotValid => 3
  | .reservedOpcode => 4
  | .reservedBits => 4
  | .reservedPad => 4

/-- `STATUS[7:4]` of an error (60_exceptions.md R272). -/
def errorCause : CommandError → BitVec 4
  | .keyLength => 1
  | .ctrPadding => 2
  | .ctrPersist => 3
  | .padPersist => 4
  | .ivEmpty => 5
  | .ivTooLong => 6
  | .capacity => 0
  | .notConstructed => 1
  | .ivNotValid => 2
  | .reservedOpcode => 1
  | .reservedBits => 2
  | .reservedPad => 3

/-- `STATUS` of an error: the cause above the code (30_encoding.md R80). -/
def errorStatus (e : CommandError) : BitVec 8 := errorCause e ++ errorCode e

/-- `STATUS` of success: code `OK` = 0, cause 0 (60_exceptions.md R271, R272). -/
def okStatus : BitVec 8 := 0

/-- `STATUS[3:0]` of a response. -/
def Response.code (r : Response) : BitVec 4 := r.status.extractLsb' 0 4

/-- `STATUS[7:4]` of a response. -/
def Response.cause (r : Response) : BitVec 4 := r.status.extractLsb' 4 4

end Sys2Proof.Machine
end

