-- ==== Sys2Proof/Machine/Operands.lean ====
section
/-!
DEFINITION. Operand checks and operand forms: the checks of CONSTRUCT and SET_IV on their operands
(41_construct_setiv.md R145, R151), IV padding (R143) and the lengths of a CBC call
(43_cbc_engine.md R200, R201).
-/
namespace Sys2Proof.Machine

/-- The legal key lengths (40_aes_core.md R106). -/
def keyLengthLegal (klen : Nat) : Bool := klen == 16 || klen == 24 || klen == 32

/-- Checks 5 and 6 of 41_construct_setiv.md R145, which are SET_IV's own (R151). -/
def ivCheck (ivlen : Nat) : Option CommandError :=
  if ivlen = 0 then some .ivEmpty
  else if 16 < ivlen then some .ivTooLong
  else none

/-- The first check of 41_construct_setiv.md R145 that fails, in the table's order. -/
def constructCheck (eng : Engine) (pad : Padding) (pers : Persistence) (klen ivlen : Nat) :
    Option CommandError :=
  if !keyLengthLegal klen then some .keyLength
  else if eng = .ctr ∧ pad ≠ .none then some .ctrPadding
  else if eng = .ctr ∧ pers ≠ .rollingPerUnit then some .ctrPersist
  else if eng = .cbc ∧ (pad = .pkcs5 ∨ pad = .cipherTextStealing) ∧ pers ≠ .rollingPerUnit then
    some .padPersist
  else ivCheck ivlen

/-- `pad16(iv) = iv ++ 0^(16 - n)` (41_construct_setiv.md R143). -/
def pad16 (iv : List Byte) : Block := blockOfBytes (iv ++ List.replicate (16 - iv.length) 0)

/-- `residual = LEN mod 16` (43_cbc_engine.md R200). -/
def residual (len : Nat) : Nat := len % 16

/-- `completeBytes = LEN - residual` (43_cbc_engine.md R200). -/
def completeBytes (len : Nat) : Nat := len - residual len

/-- `npad` (43_cbc_engine.md R201). -/
def numPadding (pad : Padding) (len : Nat) : Nat :=
  match pad with
  | .pkcs5 => 16 - residual len
  | .none => 0
  | .cipherTextStealing => 0

/-- `req = LEN + npad` (43_cbc_engine.md R201). -/
def requiredLength (pad : Padding) (len : Nat) : Nat := len + numPadding pad len

end Sys2Proof.Machine
end

