-- ==== Sys2Proof/Machine/Ops.lean ====
section
/-!
DEFINITION. The named operations over the state: reading a register, the table of instances,
responding and raising an error (60_exceptions.md R270, which is all the block has in place of taking
an exception: R280, R281), and the operations the commands share.
-/
namespace Sys2Proof.Machine

/-! ### Registers -/

/-- Read a register. A register that holds no value is a model fault, never a value
(00_scope.md R12, 10_state.md R20). -/
def need {α : Type} (r : Reg) : Option α → Except Fault α
  | some v => .ok v
  | none => .error (.noValue r)

/-- `AES_Encrypt(RK, blk)` with the round keys of the instance (40_aes_core.md R117). -/
def encryptBlock (x : Instance) (blk : Block) : Except Fault Block :=
  match need .rk x.rk with
  | .error f => .error f
  | .ok rk =>
    match need .nr x.nr with
    | .error f => .error f
    | .ok nr => .ok (aesEncrypt rk nr.toNat blk)

/-! ### The table of instances -/

/-- The block has an instance of this index: `index < N_INSTANCES`, and `N_INSTANCES` is positive
(00_scope.md R9). -/
def instanceExists : Nat → Bool
  | 0 => true
  | k + 1 => decide (k < Config.extraInstances)

/-- The registers of instance `k`; one that is not listed is in the reset state. -/
def lookupInstance : List (Nat × Instance) → Nat → Instance
  | [], _ => Instance.reset
  | (j, y) :: rest, k => if j = k then y else lookupInstance rest k

/-- An instance in front of a table, unless it is in the reset state. -/
def listInstance (k : Nat) (x : Instance) (rest : List (Nat × Instance)) : List (Nat × Instance) :=
  if x = Instance.reset then rest else (k, x) :: rest

/-- The table with instance `k` set to `x`, in canonical form again. -/
def storeInstance (k : Nat) (x : Instance) : List (Nat × Instance) → List (Nat × Instance)
  | [] => listInstance k x []
  | (j, y) :: rest =>
    if k < j then listInstance k x ((j, y) :: rest)
    else if k = j then listInstance k x rest
    else (j, y) :: storeInstance k x rest

/-- The registers of instance `k`. -/
def State.inst (s : State) (k : Nat) : Instance := lookupInstance s.instances k

/-- The state with instance `k` set to `x`. -/
def State.setInst (s : State) (k : Nat) (x : Instance) : State :=
  { s with instances := storeInstance k x s.instances }

/-- The state with one more response returned. -/
def State.answer (s : State) (a : Answer) : State := { s with responses := s.responses ++ [a] }

/-- The state in which a command is issued to instance `k` and `rest` is still to come. -/
def State.issue (s : State) (k : Nat) (rest : List HostEvent) : State :=
  { s with sel := k, input := rest }

/-- The canonical form of the table: indices strictly rise from `low` on, every listed instance is
one of the block's and is not in the reset state. -/
def tableWf : Nat → List (Nat × Instance) → Bool
  | _, [] => true
  | low, (j, y) :: rest =>
    decide (low ≤ j) && instanceExists j && decide (y ≠ Instance.reset) && tableWf (j + 1) rest

/-! ### Responses -/

/-- `respond(OK, OUTLEN)` with the bytes of `Out` (00_scope.md R12, 30_encoding.md R80). -/
def respondOk (out : List Byte) : Response where
  status := okStatus
  outLen := BitVec.ofNat 64 out.length
  out := out

/-- `raise E(cause)`: the response of an error, with no output (60_exceptions.md R270). -/
def raise (e : CommandError) : Response where
  status := errorStatus e
  outLen := 0
  out := []

/-- Perform a command on the selected instance, as one atomic step: its effect on the registers and
its response appear together (20_memory.md R57), and exactly one response is returned
(30_encoding.md R80). No other instance is touched (60_exceptions.md R287). A command to an instance
the block does not have has no step (log entry 6). -/
def perform (s : State) (f : Instance → Except Fault (Response × Instance)) : Result :=
  if instanceExists s.sel then
    match f (s.inst s.sel) with
    | .ok (r, x) => .next ((s.setInst s.sel x).answer ⟨s.sel, r⟩)
    | .error e => .fault e
  else .refused (.noSuchInstance s.sel)

/-- The error that answers a word the decoder rejects (30_encoding.md R81). A record that is not
whole has none. -/
def illegalCause : DecodeError → Option CommandError
  | .reservedOpcode => some .reservedOpcode
  | .reservedBits => some .reservedBits
  | .reservedPad => some .reservedPad
  | .incomplete => none

/-- `IllegalCommand`: a response, and no state changed (60_exceptions.md R276). A record that is not
whole has no step (30_encoding.md R70; log entry 8). -/
def rejectRecord (e : DecodeError) (s : State) : Result :=
  match illegalCause e with
  | some c => perform s fun x => .ok (raise c, x)
  | none => .refused .incompleteRecord

/-! ### Operations the commands share -/

/-- `InvalidateIv()` (41_construct_setiv.md R152). -/
def invalidateIv (x : Instance) : Instance :=
  { x with ivValid := false, ivr := none, cb := none, off := none, ks := none, cv := none }

/-- `SetIvCore(iv)` (41_construct_setiv.md R154). -/
def setIvCore (iv : List Byte) (x : Instance) : Except Fault Instance :=
  match need .eng x.eng with
  | .error f => .error f
  | .ok .ctr =>
    .ok { x with ivr := some (pad16 iv), cb := some (pad16 iv), off := some 0, ivValid := true }
  | .ok .cbc => .ok { x with ivr := some (pad16 iv), cv := some (pad16 iv), ivValid := true }

/-- A reset of the whole block (70_reset_and_hazards.md R300-R302): every instance goes to its reset
state and no response is returned. What the host has received and what it has yet to issue are the
host's (log entry 11). -/
def platformReset (s : State) : State := { s with instances := [] }

end Sys2Proof.Machine
end

