-- ==== Sys2Proof/Machine/Construct.lean ====
section
/-!
DEFINITION. CONSTRUCT and SET_IV (41_construct_setiv.md).
-/
namespace Sys2Proof.Machine

/-- The instance after the configuration steps of a successful CONSTRUCT and before `SetIvCore`:
the new configuration, and no value in every other register, since the earlier running state is
discarded (41_construct_setiv.md R147, R148; log entry 9). -/
def configure (eng : Engine) (pad : Padding) (pers : Persistence) (key : List Byte) : Instance :=
  { Instance.reset with
    configured := true
    eng := some eng
    pad := some pad
    pers := some pers
    klen := some (BitVec.ofNat 6 key.length)
    nk := some (BitVec.ofNat 4 (nkOf key.length))
    nr := some (BitVec.ofNat 4 (nrOf key.length))
    rk := some (keyExpansion key) }

/-- CONSTRUCT on one instance (41_construct_setiv.md R147): the first check that fails resets the
instance and gives the cause (R149), else the instance takes the new configuration (R148). -/
def constructOn (eng : Engine) (pad : Padding) (pers : Persistence) (key iv : List Byte) :
    Except Fault (Response × Instance) :=
  match constructCheck eng pad pers key.length iv.length with
  | some e => .ok (raise e, Instance.reset)
  | none =>
    match setIvCore iv (configure eng pad pers key) with
    | .error f => .error f
    | .ok x => .ok (respondOk [], x)

/-- SET_IV on one instance (41_construct_setiv.md R152, R153). -/
def setIvOn (iv : List Byte) (x : Instance) : Except Fault (Response × Instance) :=
  if x.configured then
    match ivCheck iv.length with
    | some e => .ok (raise e, invalidateIv x)
    | none =>
      match setIvCore iv x with
      | .error f => .error f
      | .ok x' => .ok (respondOk [], x')
  else .ok (raise .notConstructed, x)

/-- CONSTRUCT (41_construct_setiv.md R147-R150). It is legal in every state of the instance. -/
def execConstruct (eng : Engine) (pad : Padding) (pers : Persistence) (key iv : List Byte)
    (s : State) : Result :=
  perform s fun _ => constructOn eng pad pers key iv

/-- SET_IV (41_construct_setiv.md R151-R155). -/
def execSetIv (iv : List Byte) (s : State) : Result := perform s (setIvOn iv)

end Sys2Proof.Machine
end

