-- ==== Sys2Proof/Machine/Cbc.lean ====
section
/-!
DEFINITION. The CBC engine with its three padding policies (43_cbc_engine.md).
-/
namespace Sys2Proof.Machine

/-- Where chaining starts: `CV <- IVR` under RollingPerUnit, `CV` as it stands under
PersistAcrossCalls (43_cbc_engine.md R204). -/
def startChain (x : Instance) : Except Fault Instance :=
  match need .pers x.pers with
  | .error f => .error f
  | .ok .persistAcrossCalls => .ok x
  | .ok .rollingPerUnit =>
    match need .ivr x.ivr with
    | .error f => .error f
    | .ok ivr => .ok { x with cv := some ivr }

/-- The CBC block step `C = AES_Encrypt(RK, P XOR CV)`, `CV <- C` (43_cbc_engine.md R205, R206). -/
def cbcBlock (x : Instance) (p : Block) : Except Fault (Block × Instance) :=
  match need .cv x.cv with
  | .error f => .error f
  | .ok cv =>
    match encryptBlock x (p ^^^ cv) with
    | .error f => .error f
    | .ok c => withValue c fun c => .ok (c, { x with cv := some c })

/-- The complete-block region (43_cbc_engine.md R206). -/
def cbcRegion (x : Instance) : List Block → Except Fault (List Block × Instance)
  | [] => .ok ([], x)
  | p :: rest =>
    match cbcBlock x p with
    | .error f => .error f
    | .ok (c, x') =>
      match cbcRegion x' rest with
      | .error f => .error f
      | .ok (cs, x'') => .ok (c :: cs, x'')

/-- `TailClear()`: the residual is copied in clear (43_cbc_engine.md R209). -/
def tailClear (region tail : List Byte) (x : Instance) : Except Fault (Response × Instance) :=
  .ok (respondOk (region ++ tail), x)

/-- The residual filled up with `npad` bytes of value `npad` (43_cbc_engine.md R210). -/
def pkcs5Block (tail : List Byte) : Block :=
  blockOfBytes (tail ++ List.replicate (16 - tail.length) (BitVec.ofNat 8 (16 - tail.length)))

/-- `PadBlock()` (43_cbc_engine.md R210, R212). -/
def padBlock (region tail : List Byte) (x : Instance) : Except Fault (Response × Instance) :=
  match cbcBlock x (pkcs5Block tail) with
  | .error f => .error f
  | .ok (e, x') => .ok (respondOk (region ++ blockBytes e), x')

/-- The output of `Steal()`: `E` takes the place of the last 16 bytes `L` of the region, and the
first `residual` bytes of `L` follow it (43_cbc_engine.md R211). -/
def stealOutput (region : List Byte) (e : Block) (res : Nat) : List Byte :=
  region.take (region.length - 16) ++ blockBytes e ++ (region.drop (region.length - 16)).take res

/-- `Steal()` (43_cbc_engine.md R211, R212). -/
def steal (region tail : List Byte) (x : Instance) : Except Fault (Response × Instance) :=
  match cbcBlock x (pad16 tail) with
  | .error f => .error f
  | .ok (e, x') => .ok (respondOk (stealOutput region e tail.length), x')

/-- What follows the complete-block region: nothing (43_cbc_engine.md R207), or the padding policy's
own branch (R209, R210, R211). -/
def finishCbc (pad : Padding) (region tail : List Byte) (x : Instance) :
    Except Fault (Response × Instance) :=
  if tail.length = 0 ∧ pad ≠ .pkcs5 then .ok (respondOk region, x)
  else
    match pad with
    | .none => tailClear region tail x
    | .pkcs5 => padBlock region tail x
    | .cipherTextStealing => steal region tail x

/-- CRYPT on a CBC instance once the capacity has been checked and the chain started
(43_cbc_engine.md R203, R208). -/
def cbcMessage (pad : Padding) (data : List Byte) (x : Instance) :
    Except Fault (Response × Instance) :=
  if completeBytes data.length = 0 ∧ pad = .cipherTextStealing then .ok (respondOk data, x)
  else
    match cbcRegion x (blocksOf (completeBytes data.length / 16) data) with
    | .error f => .error f
    | .ok (cs, x') => finishCbc pad (blocksBytes cs) (data.drop (completeBytes data.length)) x'

/-- CRYPT on a configured CBC instance with a valid IV (43_cbc_engine.md R203, R213). -/
def cryptCbc (cap : BitVec 64) (data : List Byte) (x : Instance) :
    Except Fault (Response × Instance) :=
  match need .pad x.pad with
  | .error f => .error f
  | .ok pad =>
    if cap.toNat < requiredLength pad data.length then .ok (raise .capacity, x)
    else
      match startChain x with
      | .error f => .error f
      | .ok x' => cbcMessage pad data x'

end Sys2Proof.Machine
end

