-- ==== Sys2Proof/Machine/Ctr.lean ====
section
/-!
DEFINITION. The CTR engine (42_ctr_engine.md).
-/
namespace Sys2Proof.Machine

/-- The nonce half `CB[0:8)` (42_ctr_engine.md R170). -/
def nonceOf (cb : Block) : BitVec 64 := cb.extractLsb' 64 64

/-- `ctr(CB)`, the big-endian counter in `CB[8:16)` (42_ctr_engine.md R170). -/
def counterOf (cb : Block) : BitVec 64 := cb.extractLsb' 0 64

/-- `Inc64`: the counter plus 1 modulo 2^64, the nonce unchanged (42_ctr_engine.md R172). -/
def inc64 (cb : Block) : Block := nonceOf cb ++ (counterOf cb + 1)

/-- At a byte with `OFF = 0`: `KS <- AES_Encrypt(RK, CB)`, then `Inc64` (42_ctr_engine.md R173, R174). -/
def refill (x : Instance) : Except Fault Instance :=
  match need .cb x.cb with
  | .error f => .error f
  | .ok cb =>
    match encryptBlock x cb with
    | .error f => .error f
    | .ok ks => withValue ks fun ks => .ok { x with ks := some ks, cb := some (inc64 cb) }

/-- The XOR of one byte with `KS[OFF]`, and the advance of `OFF` (42_ctr_engine.md R174). -/
def xorByte (x : Instance) (off : BitVec 4) (p : Byte) : Except Fault (Byte × Instance) :=
  match need .ks x.ks with
  | .error f => .error f
  | .ok ks => .ok (p ^^^ blockByte ks off.toNat, { x with off := some (off + 1) })

/-- `CtrByte(p)` (42_ctr_engine.md R174). -/
def ctrByte (x : Instance) (p : Byte) : Except Fault (Byte × Instance) :=
  match need .off x.off with
  | .error f => .error f
  | .ok off =>
    if off = 0 then
      match refill x with
      | .error f => .error f
      | .ok x' => xorByte x' off p
    else xorByte x off p

/-- `CtrByte` on each byte of a stream, in order (42_ctr_engine.md R175). -/
def ctrStream (x : Instance) : List Byte → Except Fault (List Byte × Instance)
  | [] => .ok ([], x)
  | p :: rest =>
    match ctrByte x p with
    | .error f => .error f
    | .ok (c, x') =>
      match ctrStream x' rest with
      | .error f => .error f
      | .ok (cs, x'') => .ok (c :: cs, x'')

/-- CRYPT on a configured CTR instance with a valid IV (42_ctr_engine.md R175, R176). -/
def cryptCtr (cap : BitVec 64) (data : List Byte) (x : Instance) :
    Except Fault (Response × Instance) :=
  if cap.toNat < data.length then .ok (raise .capacity, x)
  else
    match ctrStream x data with
    | .error f => .error f
    | .ok (out, x') => .ok (respondOk out, x')

/-- `advances(o, N)`: how often a successful CTR CRYPT of `N` bytes that starts with `OFF = o`
advances the counter (42_ctr_engine.md R177). -/
def advances (o n : Nat) : Nat :=
  let i0 := (16 - o) % 16
  if n ≤ i0 then 0 else (n - 1 - i0) / 16 + 1

end Sys2Proof.Machine
end

