-- ==== Sys2Proof/Machine/Crypt.lean ====
section
/-!
DEFINITION. CRYPT: the checks both engines share, and the engine fixed at CONSTRUCT
(42_ctr_engine.md R175, 43_cbc_engine.md R203, 60_exceptions.md R275).
-/
namespace Sys2Proof.Machine

/-- CRYPT on one instance. -/
def cryptOn (cap : BitVec 64) (data : List Byte) (x : Instance) :
    Except Fault (Response × Instance) :=
  if x.configured then
    if x.ivValid then
      match need .eng x.eng with
      | .error f => .error f
      | .ok .ctr => cryptCtr cap data x
      | .ok .cbc => cryptCbc cap data x
    else .ok (raise .ivNotValid, x)
  else .ok (raise .notConstructed, x)

/-- CRYPT (42_ctr_engine.md R175, 43_cbc_engine.md R203). -/
def execCrypt (cap : BitVec 64) (data : List Byte) (s : State) : Result :=
  perform s (cryptOn cap data)

end Sys2Proof.Machine
end

