-- ==== Sys2Proof/Machine/Dispatch.lean ====
section
/-!
DEFINITION. One arm per command: its meaning on the selected instance.
-/
namespace Sys2Proof.Machine

/-- The meaning of a decoded command, issued to the instance `s.sel` (30_encoding.md R71). -/
def exec (i : Instr) (s : State) : Host.Outcome State Fault Refusal :=
  match i with
  | .construct eng pad pers key iv => Sys2Proof.Machine.execConstruct eng pad pers key iv s
  | .setIv iv => Sys2Proof.Machine.execSetIv iv s
  | .crypt cap data => Sys2Proof.Machine.execCrypt cap data s

end Sys2Proof.Machine
end

