-- ==== Sys2Proof/Machine/Step.lean ====
section
/-!
DEFINITION. One step of the machine: the next thing the outside world does to the block
(20_memory.md R57, R60; 70_reset_and_hazards.md R301, R321).
-/
namespace Sys2Proof.Machine

/-- One step. With nothing delivered the block waits (20_memory.md R59; log entry 1). A record is
consumed whole (30_encoding.md R87; log entry 7): the decoder's checks come first, then the command
is performed on the instance it is issued to. -/
def step (s : State) : Host.Outcome State Fault Refusal :=
  match s.input with
  | [] => .next s
  | .platformReset :: rest => .next (platformReset { s with input := rest })
  | .command k record :: rest =>
    match decode record with
    | .ok (i, _) => exec i (s.issue k rest)
    | .error e => rejectRecord e (s.issue k rest)

/-- The state with a command laid out by `tableRecord` delivered next, to instance 0, which every
block has (00_scope.md R9). -/
def State.withFetchWord (s : State) (nbits w : Nat) : State :=
  { s with input := .command 0 (tableRecord nbits w) :: s.input }

end Sys2Proof.Machine
end

