-- ==== Sys2Proof/Machine/Assembler.lean ====
section
/-!
DEFINITION. The assembler syntax and the pseudo-commands (30_encoding.md R88, R89). It is not part of
the machine (92 D8). Log entry 23 says what the syntax leaves open and this text fixes.
-/
namespace Sys2Proof.Machine

/-- The value of a hexadecimal digit. -/
def hexDigit (c : Char) : Option Nat :=
  if '0' ≤ c ∧ c ≤ '9' then some (c.toNat - 48)
  else if 'a' ≤ c ∧ c ≤ 'f' then some (c.toNat - 87)
  else if 'A' ≤ c ∧ c ≤ 'F' then some (c.toNat - 55)
  else none

/-- `<hex>`: empty, or pairs of digits, the first pair byte 0 (R88). -/
def hexBytes : List Char → Option (List Byte)
  | [] => some []
  | [_] => none
  | hi :: lo :: rest =>
    match hexDigit hi, hexDigit lo, hexBytes rest with
    | some h, some l, some bytes => some (BitVec.ofNat 8 (16 * h + l) :: bytes)
    | _, _, _ => none

/-- The value of decimal digits after the number `n`. -/
def decimalFrom (n : Nat) : List Char → Option Nat
  | [] => some n
  | c :: rest => if '0' ≤ c ∧ c ≤ '9' then decimalFrom (10 * n + (c.toNat - 48)) rest else none

/-- `<decimal>`: at least one digit (R88). -/
def decimal : List Char → Option Nat
  | [] => none
  | c :: rest => decimalFrom 0 (c :: rest)

/-- White space inside a line. -/
def isBlank (c : Char) : Bool := c == ' ' || c == '\t'

/-- The text without white space at either end. -/
def trimBlanks (cs : List Char) : List Char :=
  ((cs.dropWhile isBlank).reverse.dropWhile isBlank).reverse

/-- The operands of a line, separated by commas. -/
def splitCommas : List Char → List (List Char)
  | [] => [[]]
  | c :: rest =>
    if c = ',' then [] :: splitCommas rest
    else
      match splitCommas rest with
      | [] => [[c]]
      | w :: ws => (c :: w) :: ws

/-- The text after a keyword, if it begins with it. -/
def afterKeyword : List Char → List Char → Option (List Char)
  | [], rest => some rest
  | _ :: _, [] => none
  | k :: ks, c :: cs => if k = c then afterKeyword ks cs else none

/-- The bytes of an operand `<name>=<hex>`. -/
def bytesOperand (name operand : List Char) : Option (List Byte) :=
  (afterKeyword name operand).bind hexBytes

/-- `<eng>` (R88). -/
def engineName (w : List Char) : Option Engine :=
  if w = "ctr".toList then some .ctr else if w = "cbc".toList then some .cbc else none

/-- `<pad>` (R88). -/
def paddingName (w : List Char) : Option Padding :=
  if w = "none".toList then some .none
  else if w = "pkcs5".toList then some .pkcs5
  else if w = "cts".toList then some .cipherTextStealing
  else Option.none

/-- `<pers>` (R88). -/
def persistenceName (w : List Char) : Option Persistence :=
  if w = "rolling".toList then some .rollingPerUnit
  else if w = "persist".toList then some .persistAcrossCalls
  else none

/-- `CONSTRUCT <eng>, <pad>, <pers>, key=<hex>, iv=<hex>` (R88). -/
def assembleConstruct (eng pad pers key iv : List Char) : Option Instr :=
  match engineName eng, paddingName pad, persistenceName pers,
    bytesOperand "key=".toList key, bytesOperand "iv=".toList iv with
  | some e, some p, some q, some k, some v => some (.construct e p q k v)
  | _, _, _, _, _ => none

/-- `CONSTRUCT_CTR key=<k>, iv=<v>` (R89). -/
def assembleConstructCtr (key iv : List Char) : Option Instr :=
  match bytesOperand "key=".toList key, bytesOperand "iv=".toList iv with
  | some k, some v => some (pseudoConstructCtr k v)
  | _, _ => none

/-- `CONSTRUCT_CBC <pad>, key=<k>, iv=<v>` (R89). -/
def assembleConstructCbc (pad key iv : List Char) : Option Instr :=
  match paddingName pad, bytesOperand "key=".toList key, bytesOperand "iv=".toList iv with
  | some p, some k, some v => some (pseudoConstructCbc p k v)
  | _, _, _ => none

/-- `CRYPT cap=<decimal>, data=<hex>` (R88); a capacity that 64 bits do not hold is refused (R74). -/
def assembleCrypt (cap data : List Char) : Option Instr :=
  match (afterKeyword "cap=".toList cap).bind decimal, bytesOperand "data=".toList data with
  | some n, some d => if n < 2 ^ 64 then some (.crypt (BitVec.ofNat 64 n) d) else none
  | _, _ => none

/-- The command a mnemonic and its operands stand for (R88, R89). -/
def assembleWords (mnemonic : List Char) (operands : List (List Char)) : Option Instr :=
  if mnemonic = "CONSTRUCT".toList then
    match operands with
    | [eng, pad, pers, key, iv] => assembleConstruct eng pad pers key iv
    | _ => none
  else if mnemonic = "CONSTRUCT_CTR".toList then
    match operands with
    | [key, iv] => assembleConstructCtr key iv
    | _ => none
  else if mnemonic = "CONSTRUCT_CBC".toList then
    match operands with
    | [pad, key, iv] => assembleConstructCbc pad key iv
    | _ => none
  else if mnemonic = "SET_IV".toList then
    match operands with
    | [iv] => (bytesOperand "iv=".toList iv).map .setIv
    | _ => none
  else if mnemonic = "CRYPT".toList then
    match operands with
    | [cap, data] => assembleCrypt cap data
    | [data] => (bytesOperand "data=".toList data).map pseudoCrypt
    | _ => none
  else none

/-- The command of one line, `;` starting a comment. A key, an IV or data that no encoding expresses is
refused; a length that encodes but that CONSTRUCT or SET_IV rejects is not (R88). -/
def assembleLine (line : List Char) : Option Instr :=
  let text := trimBlanks (line.takeWhile (· ≠ ';'))
  let mnemonic := text.takeWhile fun c => !isBlank c
  let operands := (splitCommas (text.dropWhile fun c => !isBlank c)).map trimBlanks
  match assembleWords mnemonic operands with
  | some i => if i.wf then some i else none
  | none => none

end Sys2Proof.Machine
end

