-- ==== Sys2Proof/Machine/HostView.lean ====
section
/-!
DEFINITION. What the host sees: a response on a byte transport, the host's output buffer
(20_memory.md R50, 60_exceptions.md R274), and the commands it issues one after another
(20_memory.md R60).
-/
namespace Sys2Proof.Machine

/-- A response as bytes: `STATUS`, `OUTLEN` least significant byte first, `Out` (30_encoding.md R80,
20_memory.md R55; log entry 22 on the order of the items). -/
def responseBytes (r : Response) : List Byte :=
  r.status :: (leBytes 8 r.outLen.toNat ++ r.out)

/-- The host's output buffer after the response number `n`: the first `OUTLEN` bytes are `Out` and
the others are untouched (20_memory.md R50), but after a CapacityError every byte is free
(60_exceptions.md R274; log entry 21). -/
def hostBufferAfter (n : Nat) (r : Response) (buffer : List Byte) : List Byte :=
  if r.code = errorCode .capacity then (List.range buffer.length).map (Config.freeHostByte n)
  else r.out ++ buffer.drop r.out.length

/-- Commands performed one after another on the selected instance (20_memory.md R60). -/
def execAll : List Instr → State → Result
  | [], s => .next s
  | i :: rest, s =>
    match exec i s with
    | .next t => execAll rest t
    | .fault f => .fault f
    | .refused r => .refused r

/-- The commands as the host delivers them to instance `k` (30_encoding.md R70). -/
def deliverTo (k : Nat) (commands : List Instr) : List HostEvent :=
  commands.map fun i => .command k (encode i)

/-- The responses instance `k` has returned, oldest first. -/
def State.answersOf (s : State) (k : Nat) : List Response :=
  (s.responses.filter fun a => a.inst == k).map Answer.resp

end Sys2Proof.Machine
end

