-- ==== Sys2Proof/Machine/Metadata.lean ====
section
/-!
DEFINITION. The sample protection metadata record (44_metadata.md): a value passed between host
steps, which no command reads or writes and of which the block holds no copy (R240). The functions
of the record that the spec defines: validity (R247), spans and cipher stream (R242, R248), the
pattern (R249), and the commands a host issues for a sample (R251, host behaviour).
-/
namespace Sys2Proof.Machine

/-- `SubsampleEntry`: clear bytes first, then cipher bytes (44_metadata.md R242). -/
structure SubsampleEntry where
  clearBytes : BitVec 16
  cipherBytes : BitVec 32
  deriving DecidableEq, Repr

/-- `protectionScheme` (44_metadata.md R243). -/
inductive Scheme where
  | cenc
  | cens
  | cbc1
  | cbcs
  deriving DecidableEq, Repr

/-- The record (44_metadata.md R241). -/
structure SampleMeta where
  keyId : List Byte
  iv : List Byte
  subsamples : List SubsampleEntry
  protectionScheme : Scheme
  patternCryptBlocks : BitVec 8
  patternSkipBlocks : BitVec 8
  deriving DecidableEq, Repr

/-- The code of a scheme as a record field (44_metadata.md R243). -/
def schemeCode : Scheme → BitVec 2
  | .cenc => 0
  | .cens => 1
  | .cbc1 => 2
  | .cbcs => 3

/-- The scheme of a code. -/
def schemeOfCode (c : BitVec 2) : Scheme :=
  if c = 0 then .cenc else if c = 1 then .cens else if c = 2 then .cbc1 else .cbcs

/-- The bytes one subsample spans. -/
def spanLength (e : SubsampleEntry) : Nat := e.clearBytes.toNat + e.cipherBytes.toNat

/-- `Σ_j (clearBytes_j + cipherBytes_j)` (44_metadata.md R244). -/
def spansLength (es : List SubsampleEntry) : Nat := (es.map spanLength).sum

/-- `off_j`, where the span of entry `j` starts (44_metadata.md R242). -/
def spanOffset (es : List SubsampleEntry) (j : Nat) : Nat := spansLength (es.take j)

/-- The scheme uses no pattern (44_metadata.md R245). -/
def schemeHasNoPattern : Scheme → Bool
  | .cenc => true
  | .cens => false
  | .cbc1 => true
  | .cbcs => false

/-- `MetaValid(m, L)` (44_metadata.md R247). -/
def metaValid (m : SampleMeta) (sampleLength : Nat) : Bool :=
  decide (m.keyId.length = Config.keyIdLen) &&
  decide (1 ≤ m.iv.length ∧ m.iv.length ≤ 16) &&
  decide (m.subsamples.length ≤ Config.maxSubsamples) &&
  decide (spansLength m.subsamples = sampleLength) &&
  (!schemeHasNoPattern m.protectionScheme ||
    decide (m.patternCryptBlocks = 0 ∧ m.patternSkipBlocks = 0))

/-- The cipher spans of a sample, from entry to entry, the first at offset `off`
(44_metadata.md R242, R248). -/
def cipherSpansFrom (sample : List Byte) : Nat → List SubsampleEntry → List (List Byte)
  | _, [] => []
  | off, e :: rest =>
    (sample.drop (off + e.clearBytes.toNat)).take e.cipherBytes.toNat ::
      cipherSpansFrom sample (off + spanLength e) rest

/-- The cipher spans of a sample under a record. -/
def cipherSpans (m : SampleMeta) (sample : List Byte) : List (List Byte) :=
  cipherSpansFrom sample 0 m.subsamples

/-- `cipherStream(m, S)` (44_metadata.md R248). -/
def cipherStream (m : SampleMeta) (sample : List Byte) : List Byte := (cipherSpans m sample).flatten

/-- Block `k` of a stream is encrypted under the pattern of `N` encrypted and `M` clear blocks
(44_metadata.md R249). With `N + M = 0` the answer is free (log entry 20). -/
def patternEncrypts (n m k : Nat) : Bool :=
  if n + m = 0 then Config.emptyPatternEncrypts k else decide (k % (n + m) < n)

/-- Which blocks of a CTR stream use up keystream under a cens pattern: only those it encrypts, so that
the keystream runs on across the clear ones, or every block (44_metadata.md R249, 93 U16). -/
inductive CensKeystream where
  | encryptedBlocks
  | everyBlock
  deriving DecidableEq, Repr

/-- How a pipeline settles the points that 44_metadata.md R249 leaves open beside `N + M = 0`; a model of
a pipeline takes them as parameters (R249, 93 U16; log entry 20). -/
structure PatternReading where
  /-- The logical stream, and the pattern with it, starts again at each subsample. -/
  restartsAtSubsamples : Bool
  /-- A final partial block is encrypted where the pattern would encrypt a whole one. -/
  encryptsPartialBlock : Bool
  /-- How cens applies the pattern to a CTR stream. -/
  censKeystream : CensKeystream
  deriving DecidableEq, Repr

/-- At most `n` blocks of 16 bytes from the head of a stream, the last one perhaps partial. -/
def splitBlocks : Nat → List Byte → List (List Byte)
  | 0, _ => []
  | n + 1, stream =>
    if stream.isEmpty then [] else stream.take 16 :: splitBlocks n (stream.drop 16)

/-- A maximal run of blocks of a stream that the pattern treats alike. -/
structure Segment where
  encrypted : Bool
  data : List Byte
  deriving DecidableEq, Repr

/-- Block `k` of a stream is routed through the engine: the pattern encrypts it, and it is whole or the
pipeline encrypts partial blocks (44_metadata.md R249). -/
def routesBlock (reading : PatternReading) (n m k : Nat) (block : List Byte) : Bool :=
  patternEncrypts n m k && (block.length == 16 || reading.encryptsPartialBlock)

/-- A block in front of segments: part of the first one, if that is of its kind. -/
def addBlock (encrypted : Bool) (block : List Byte) : List Segment → List Segment
  | [] => [⟨encrypted, block⟩]
  | seg :: rest =>
    if seg.encrypted = encrypted then ⟨encrypted, block ++ seg.data⟩ :: rest
    else ⟨encrypted, block⟩ :: seg :: rest

/-- The segments of the blocks of a stream, the first of them block `k` (44_metadata.md R249). -/
def segmentsFrom (reading : PatternReading) (n m : Nat) : Nat → List (List Byte) → List Segment
  | _, [] => []
  | k, block :: rest =>
    addBlock (routesBlock reading n m k block) block (segmentsFrom reading n m (k + 1) rest)

/-- The segments of a sample's cipher bytes under its record's pattern (44_metadata.md R249). -/
def patternSegments (reading : PatternReading) (m : SampleMeta) (sample : List Byte) :
    List Segment :=
  let streams := if reading.restartsAtSubsamples then cipherSpans m sample else [cipherStream m sample]
  streams.flatMap fun stream =>
    segmentsFrom reading m.patternCryptBlocks.toNat m.patternSkipBlocks.toNat 0
      (splitBlocks (stream.length / 16 + 1) stream)

/-- The runs of encrypted blocks of a sample (44_metadata.md R249). -/
def encryptedRuns (reading : PatternReading) (m : SampleMeta) (sample : List Byte) :
    List (List Byte) :=
  ((patternSegments reading m sample).filter Segment.encrypted).map Segment.data

/-- What a host passes through CRYPT for a cens sample: the runs of encrypted blocks, or every segment,
where the keystream counts the clear blocks too (44_metadata.md R249, 93 U16). -/
def censPieces (reading : PatternReading) (m : SampleMeta) (sample : List Byte) : List (List Byte) :=
  match reading.censKeystream with
  | .encryptedBlocks => encryptedRuns reading m sample
  | .everyBlock => (patternSegments reading m sample).map Segment.data

/-- The cipher bytes of a protected cens sample, from the outputs of the CRYPTs of `censPieces` in order:
an encrypted segment gives its output, a clear one its own bytes, whether or not it was passed through
CRYPT (44_metadata.md R249, R250). -/
def censProtected (keystream : CensKeystream) : List Segment → List (List Byte) → List Byte
  | [], _ => []
  | seg :: rest, outs =>
    if seg.encrypted then outs.headD [] ++ censProtected keystream rest outs.tail
    else
      match keystream with
      | .encryptedBlocks => seg.data ++ censProtected keystream rest outs
      | .everyBlock => seg.data ++ censProtected keystream rest outs.tail

/-! ### Driving the engines (44_metadata.md R251, host behaviour) -/

/-- The engine each scheme uses: the pairing that R251 takes from general knowledge (log entry 24). -/
def schemeEngine : Scheme → Engine
  | .cenc => .ctr
  | .cens => .ctr
  | .cbc1 => .cbc
  | .cbcs => .cbc

/-- The two ways R251 gives a host to chain a cbc1 sample over one logical stream: a single CRYPT of it, or
a PersistAcrossCalls instance. How the second cuts the stream into CRYPTs is open; one CRYPT for each span
is the model's choice (DESIGN CHOICE, unsafe: log entry 25). -/
inductive Cbc1Route where
  | oneCrypt
  | perSpan
  deriving DecidableEq, Repr

/-- The persistence mode of the instance: what R251 asks for, and the one mode legal on CTR. With one
CRYPT of the whole cbc1 stream either will do. -/
def schemePersistence (route : Cbc1Route) : Scheme → Option Persistence
  | .cenc => some .rollingPerUnit
  | .cens => some .rollingPerUnit
  | .cbc1 =>
    match route with
    | .oneCrypt => none
    | .perSpan => some .persistAcrossCalls
  | .cbcs => some .persistAcrossCalls

/-- SET_IV with the record's IV, then one CRYPT for each piece, in order. -/
def drive (m : SampleMeta) (pieces : List (List Byte)) : List Instr :=
  .setIv m.iv :: pieces.map pseudoCrypt

/-- The nonzero cipher spans of a sample, in subsample order. -/
def nonzeroSpans (m : SampleMeta) (sample : List Byte) : List (List Byte) :=
  (cipherSpans m sample).filter fun d => !d.isEmpty

/-- cenc, on a CTR instance: one CRYPT for each nonzero cipher span. -/
def cencCommands (m : SampleMeta) (sample : List Byte) : List Instr :=
  drive m (nonzeroSpans m sample)

/-- cens, on a CTR instance: one CRYPT for each piece that the pattern and its reading give. -/
def censCommands (reading : PatternReading) (m : SampleMeta) (sample : List Byte) : List Instr :=
  drive m (censPieces reading m sample)

/-- cbcs, on a `CBC + None + PersistAcrossCalls` instance: one CRYPT for each run of encrypted blocks. -/
def cbcsCommands (reading : PatternReading) (m : SampleMeta) (sample : List Byte) : List Instr :=
  drive m (encryptedRuns reading m sample)

/-- cbc1: a single CRYPT of the whole cipher stream, or on a PersistAcrossCalls instance one CRYPT for
each nonzero cipher span. R251 does not say how the second route cuts the stream, and the cut at the spans
is the model's choice (DESIGN CHOICE, unsafe: log entry 25). A span that is no multiple of 16 bytes then
leaves its tail clear (43_cbc_engine.md R209, R217), so the two routes can differ unless every nonzero
span but the last is a multiple of 16 bytes. -/
def cbc1Commands (route : Cbc1Route) (m : SampleMeta) (sample : List Byte) : List Instr :=
  match route with
  | .oneCrypt => drive m [cipherStream m sample]
  | .perSpan => drive m (nonzeroSpans m sample)

/-- The commands a host issues for a sample, by its record's scheme. -/
def sampleCommands (reading : PatternReading) (route : Cbc1Route) (m : SampleMeta)
    (sample : List Byte) : List Instr :=
  match m.protectionScheme with
  | .cenc => cencCommands m sample
  | .cens => censCommands reading m sample
  | .cbc1 => cbc1Commands route m sample
  | .cbcs => cbcsCommands reading m sample

end Sys2Proof.Machine
end

