-- ==== Sys2Proof/Safety.lean ====
section
/-!
DEFINITION. The terms the claims use: what holds of the machine in every state it can reach
(10_state.md R37), what the host must deliver for the machine never to stop (30_encoding.md R70,
60_exceptions.md R287), when CRYPT runs, and the keystream and the chaining that its output is
compared with.
-/
namespace Sys2Proof.Machine

/-! ### Invariants -/

/-- The legal combinations of engine, padding and persistence (41_construct_setiv.md R146). -/
def legalConfiguration : Engine → Padding → Persistence → Bool
  | .ctr, .none, .rollingPerUnit => true
  | .ctr, .none, .persistAcrossCalls => false
  | .ctr, .pkcs5, _ => false
  | .ctr, .cipherTextStealing, _ => false
  | .cbc, .none, .rollingPerUnit => true
  | .cbc, .none, .persistAcrossCalls => true
  | .cbc, .pkcs5, .rollingPerUnit => true
  | .cbc, .pkcs5, .persistAcrossCalls => false
  | .cbc, .cipherTextStealing, .rollingPerUnit => true
  | .cbc, .cipherTextStealing, .persistAcrossCalls => false

/-- The instance holds the configuration of a successful CONSTRUCT: a legal combination, and the key
schedule of a key of legal length (10_state.md R26, R37 point 2; 41_construct_setiv.md R148). -/
def Instance.HoldsConfiguration (x : Instance) : Prop :=
  (∃ eng pad pers, x.eng = some eng ∧ x.pad = some pad ∧ x.pers = some pers ∧
    legalConfiguration eng pad pers = true) ∧
  ∃ key : List Byte, keyLengthLegal key.length = true ∧
    x.klen = some (BitVec.ofNat 6 key.length) ∧ x.nk = some (BitVec.ofNat 4 (nkOf key.length)) ∧
    x.nr = some (BitVec.ofNat 4 (nrOf key.length)) ∧ x.rk = some (keyExpansion key)

/-- The counter block one increment earlier. -/
def previousCounterBlock (cb : Block) : Block := nonceOf cb ++ (counterOf cb - 1)

/-- The running state of a CTR instance with a valid IV: `CB` and `OFF` hold values, `CV` none, and in
the middle of a block `KS` is the keystream block computed before the last increment
(10_state.md R31, R37 points 3 and 4). -/
def Instance.CtrRunning (x : Instance) : Prop :=
  x.cv = none ∧
  ∃ cb off, x.cb = some cb ∧ x.off = some off ∧
    (off ≠ 0 → ∃ rk nr, x.rk = some rk ∧ x.nr = some nr ∧
      x.ks = some (aesEncrypt rk nr.toNat (previousCounterBlock cb)))

/-- The running state of a CBC instance with a valid IV (10_state.md R28-R31, R37 point 3). -/
def Instance.CbcRunning (x : Instance) : Prop :=
  x.cb = none ∧ x.off = none ∧ x.ks = none ∧ ∃ cv, x.cv = some cv

/-- `IVR` and the running state hold no value (41_construct_setiv.md R153). -/
def Instance.HoldsNoIv (x : Instance) : Prop :=
  x.ivr = none ∧ x.cb = none ∧ x.off = none ∧ x.ks = none ∧ x.cv = none

/-- The invariants of one instance (10_state.md R37). -/
def Instance.Inv (x : Instance) : Prop :=
  (x.configured = false → x = Instance.reset) ∧
  (x.configured = true → x.HoldsConfiguration) ∧
  (x.ivValid = false → x.HoldsNoIv) ∧
  (x.ivValid = true → x.configured = true ∧ (∃ ivr, x.ivr = some ivr) ∧
    (x.eng = some .ctr → x.CtrRunning) ∧ (x.eng = some .cbc → x.CbcRunning))

/-- The invariants of the block: the table of instances is in canonical form and every instance meets
its own. -/
def State.Inv (s : State) : Prop :=
  tableWf 0 s.instances = true ∧ ∀ k, (s.inst k).Inv

/-! ### What the host may deliver -/

/-- The record holds as many bytes as its fields ask for (30_encoding.md R70, R79). -/
def recordWhole (record : List Byte) : Bool :=
  match decode record with
  | .ok _ => true
  | .error .incomplete => false
  | .error _ => true

/-- The event is one the interface allows: a whole record for an instance the block has, or a reset. -/
def eventAllowed : HostEvent → Bool
  | .platformReset => true
  | .command k record => instanceExists k && recordWhole record

/-- Everything the host has still to deliver is allowed. -/
def State.inputAllowed (s : State) : Bool := s.input.all eventAllowed

/-! ### The result of a command -/

/-- The state after a command that answers `r` and leaves the registers `x` in the selected instance,
and touches nothing else. -/
def State.after (s : State) (r : Response) (x : Instance) : State :=
  (s.setInst s.sel x).answer ⟨s.sel, r⟩

/-! ### When CRYPT runs -/

/-- A CTR instance ready for CRYPT: constructed, with a valid IV, and every register that the engine
will read before it writes it holds a value (10_state.md R37, 42_ctr_engine.md R174). -/
def Instance.CtrReady (x : Instance) (rk : List Word) (nr : BitVec 4) (cb : Block) (off : BitVec 4) :
    Prop :=
  x.configured = true ∧ x.ivValid = true ∧ x.eng = some .ctr ∧ x.rk = some rk ∧ x.nr = some nr ∧
    x.cb = some cb ∧ x.off = some off ∧ (off ≠ 0 → ∃ ks, x.ks = some ks)

/-- A CBC instance ready for CRYPT with the padding `pad`, whose next call chains from `start`: `IVR`
under RollingPerUnit, `CV` under PersistAcrossCalls (43_cbc_engine.md R204). -/
def Instance.CbcReady (x : Instance) (pad : Padding) (rk : List Word) (nr : BitVec 4)
    (start : Block) : Prop :=
  x.configured = true ∧ x.ivValid = true ∧ x.eng = some .cbc ∧ x.pad = some pad ∧
    x.rk = some rk ∧ x.nr = some nr ∧
    ((x.pers = some .rollingPerUnit ∧ x.ivr = some start) ∨
      (x.pers = some .persistAcrossCalls ∧ x.cv = some start))

/-! ### The keystream and the chain -/

/-- The counter block `n` increments later: the nonce unchanged, the counter modulo 2^64
(42_ctr_engine.md R171, R172). -/
def counterBlockAfter (cb : Block) (n : Nat) : Block :=
  nonceOf cb ++ (counterOf cb + BitVec.ofNat 64 n)

/-- Byte `p` of the keystream, counted from the start of the block that holds the byte at `off`: the
rest of the old keystream block `ks` first if `off ≠ 0`, then the encryptions of `cb` and of the
counter blocks after it (42_ctr_engine.md R173, R174). -/
def keystreamByte (rk : List Word) (nr : BitVec 4) (cb : Block) (off : BitVec 4) (ks : Block)
    (p : Nat) : Byte :=
  if off = 0 then blockByte (aesEncrypt rk nr.toNat (counterBlockAfter cb (p / 16))) (p % 16)
  else if p < 16 then blockByte ks p
  else blockByte (aesEncrypt rk nr.toNat (counterBlockAfter cb (p / 16 - 1))) (p % 16)

/-- `KS` after `n` advances of the counter (42_ctr_engine.md R174). -/
def keystreamBlockAfter (rk : List Word) (nr : BitVec 4) (cb : Block) (ks : Option Block) :
    Nat → Option Block
  | 0 => ks
  | n + 1 => some (aesEncrypt rk nr.toNat (counterBlockAfter cb n))

/-- Standard CBC chaining from `prev` (43_cbc_engine.md R205). -/
def standardCbc (rk : List Word) (nr : BitVec 4) : Block → List Block → List Block
  | _, [] => []
  | prev, p :: rest =>
    aesEncrypt rk nr.toNat (p ^^^ prev) ::
      standardCbc rk nr (aesEncrypt rk nr.toNat (p ^^^ prev)) rest

end Sys2Proof.Machine
end

