-- ==== Sys2Proof/Certificates/Slice0/Obligations.lean ====
section
/-!
DEFINITION. The statements about the model, from the numbered rules of spec/.
-/
open Sys2Proof Sys2Proof.Machine

/-! ### Encoding -/

/-- Decoding an encoded well-formed command gives it back, and leaves what follows it in the record
(30_encoding.md R72-R78). -/
def Obligations.DecodeOfEncodeIsTheCommand : Prop :=
  ∀ (i : Instr) (rest : List Byte), i.wf = true → decode (encode i ++ rest) = .ok (i, rest)

/-- What decodes is a well-formed command, and its encoding is the bytes it was read from: no bit of
a record is ignored (30_encoding.md R82, R84). -/
def Obligations.EncodeOfDecodeIsTheRecord : Prop :=
  ∀ (bytes : List Byte) (i : Instr) (rest : List Byte), decode bytes = .ok (i, rest) →
    i.wf = true ∧ encode i ++ rest = bytes

/-- The encoding examples of 30_encoding.md R90, each with the words the table gives. -/
def Obligations.EncodingExamplesOfTheTable : Prop :=
  (∀ key iv : List Byte, key.length = 16 → iv.length = 16 →
    commandWord (.construct .ctr .none .rollingPerUnit key iv) = 0x00041001 ∧
    commandWord (.construct .cbc .none .persistAcrossCalls key iv) = 0x00041091) ∧
  (∀ key iv : List Byte, key.length = 32 → iv.length = 16 →
    commandWord (.construct .cbc .pkcs5 .rollingPerUnit key iv) = 0x00042031) ∧
  (∀ key iv : List Byte, key.length = 24 → iv.length = 8 →
    commandWord (.construct .cbc .cipherTextStealing .rollingPerUnit key iv) = 0x00021851) ∧
  (∀ key iv : List Byte, key.length = 16 → iv.length = 8 →
    commandWord (.construct .ctr .none .rollingPerUnit key iv) = 0x00021001) ∧
  (∀ iv : List Byte, iv.length = 8 → commandWord (.setIv iv) = 0x00020002) ∧
  (∀ iv : List Byte, iv.length = 16 → commandWord (.setIv iv) = 0x00040002) ∧
  (∀ data : List Byte, data.length = 32 →
    commandWord (.crypt 48 data) = 0x00000003 ∧
    operandWords (.crypt 48 data) =
      [0x20, 0, 0, 0] ++ [0x30, 0, 0, 0, 0, 0, 0, 0])

/-- The length of a command's record (30_encoding.md R79). -/
def Obligations.RecordLengthIsFixedByTheFields : Prop :=
  (∀ eng pad pers (key iv : List Byte),
    (encode (.construct eng pad pers key iv)).length = 4 + key.length + iv.length) ∧
  (∀ iv : List Byte, (encode (.setIv iv)).length = 4 + iv.length) ∧
  (∀ (cap : BitVec 64) (data : List Byte), (encode (.crypt cap data)).length = 4 + 4 + 8 + data.length)

/-- The decoder's checks, in their order, on the word at the head of a record; and where all of them
pass a whole record is a command (30_encoding.md R81, R82, R83, R84, R86). -/
def Obligations.DecoderChecksInOrder : Prop :=
  ∀ (cw : Word) (payload : List Byte),
    let bytes := leBytes 4 cw.toNat ++ payload
    if cwOp cw ≠ 1 ∧ cwOp cw ≠ 2 ∧ cwOp cw ≠ 3 then decode bytes = .error .reservedOpcode
    else if (cwOp cw = 1 ∧ cw.extractLsb' 20 12 ≠ 0) ∨
        (cwOp cw = 2 ∧ (cw.extractLsb' 4 10 ≠ 0 ∨ cw.extractLsb' 20 12 ≠ 0)) ∨
        (cwOp cw = 3 ∧ cw.extractLsb' 4 28 ≠ 0) then decode bytes = .error .reservedBits
    else if cwOp cw = 1 ∧ cw.extractLsb' 5 2 = 3 then decode bytes = .error .reservedPad
    else if recordLength bytes ≤ bytes.length then ∃ i rest, decode bytes = .ok (i, rest)
    else decode bytes = .error .incomplete

/-- A few records written out from the spec decode to the commands they stand for
(95_test_vectors.md §8, steps P1.2, P3.2, P3.3, P4.1). -/
def Obligations.RecordsOfTheProgramsDecode : Prop :=
  decode [0x03, 0, 0, 0, 0x05, 0, 0, 0, 0x05, 0, 0, 0, 0, 0, 0, 0, 0x6b, 0xc1, 0xbe, 0xe2, 0x2e] =
    .ok (.crypt 5 [0x6b, 0xc1, 0xbe, 0xe2, 0x2e], []) ∧
  decode [0x02, 0x40, 0x00, 0x00, 0x00] = .ok (.setIv [0x00], []) ∧
  (∀ key iv : List Byte, key.length = 16 → iv.length = 16 →
    decode ([0xb1, 0x10, 0x04, 0x00] ++ key ++ iv) =
      .ok (.construct .cbc .pkcs5 .persistAcrossCalls key iv, [])) ∧
  (∀ key iv : List Byte, key.length = 16 → iv.length = 8 →
    decode ([0x01, 0x10, 0x02, 0x00] ++ key ++ iv) =
      .ok (.construct .ctr .none .rollingPerUnit key iv, []))

/-! ### One step -/

/-- A step performs the command at the head of what the host delivers, on the instance it is
delivered to, and consumes its record whole (30_encoding.md R70, R87; log entries 1, 2, 7). -/
def Obligations.StepPerformsTheDecodedCommand : Prop :=
  ∀ (s : State) (k : Nat) (record : List Byte) (queue : List HostEvent) (i : Instr)
    (rest : List Byte),
    s.input = .command k record :: queue → decode record = .ok (i, rest) →
      step s = exec i { s with sel := k, input := queue }

/-- The decoder's checks, in their order, on a record delivered to the block: the first that fails
decides the response, and no register of any instance changes; where all pass and the record is
whole, the command at its head is performed (30_encoding.md R81, R83, R84, R86; 60_exceptions.md R271,
R272, R276). That the host's commands are a queue is the model's (log entry 1), and so is that a whole
record with surplus bytes is performed as the command at its head (log entry 7). -/
def Obligations.IllegalCommandChangesNothing : Prop :=
  ∀ (s : State) (k : Nat) (cw : Word) (payload : List Byte) (queue : List HostEvent),
    let record := leBytes 4 cw.toNat ++ payload
    s.Inv → s.input = .command k record :: queue → instanceExists k = true →
      let rejects := fun status : BitVec 8 =>
        ∃ t, step s = .next t ∧ t.instances = s.instances ∧ t.input = queue ∧
          t.responses = s.responses ++ [⟨k, ⟨status, 0, []⟩⟩]
      if cwOp cw ≠ 1 ∧ cwOp cw ≠ 2 ∧ cwOp cw ≠ 3 then rejects 0x14
      else if (cwOp cw = 1 ∧ cw.extractLsb' 20 12 ≠ 0) ∨
          (cwOp cw = 2 ∧ (cw.extractLsb' 4 10 ≠ 0 ∨ cw.extractLsb' 20 12 ≠ 0)) ∨
          (cwOp cw = 3 ∧ cw.extractLsb' 4 28 ≠ 0) then rejects 0x24
      else if cwOp cw = 1 ∧ cw.extractLsb' 5 2 = 3 then rejects 0x34
      else recordLength record ≤ record.length →
        ∃ i rest, decode record = .ok (i, rest) ∧ step s = exec i { s with sel := k, input := queue }

/-- The model's choices where the interface gives no step: with nothing delivered the block waits
(log entry 1), a record that is not whole is refused (log entry 8), and a command to an instance the
block does not have is refused (log entry 6). -/
def Obligations.StepsOutsideTheInterface : Prop :=
  (∀ s : State, s.input = [] → step s = .next s) ∧
  (∀ (s : State) (k : Nat) (record : List Byte) (queue : List HostEvent),
    s.input = .command k record :: queue → decode record = .error .incomplete →
      step s = .refused .incompleteRecord) ∧
  (∀ (i : Instr) (s : State), instanceExists s.sel = false →
    exec i s = .refused (.noSuchInstance s.sel))

/-- A reset of the block puts every instance in its reset state, keeps no round key, and answers
nothing (70_reset_and_hazards.md R300, R302; log entry 11). -/
def Obligations.PlatformResetClearsEveryInstance : Prop :=
  ∀ (s : State) (queue : List HostEvent), s.input = .platformReset :: queue →
    ∃ t, step s = .next t ∧ (∀ k, t.inst k = Instance.reset ∧ (t.inst k).rk = none) ∧
      t.responses = s.responses ∧ t.input = queue

/-- The reset state: the two status bits are 0 and every other register holds no value
(10_state.md R34, 70_reset_and_hazards.md R300). -/
def Obligations.ResetValuesOfEveryRegister : Prop :=
  ∀ k, let x := State.reset.inst k
    x.configured = false ∧ x.ivValid = false ∧ x.eng = none ∧ x.pad = none ∧ x.pers = none ∧
    x.klen = none ∧ x.nk = none ∧ x.nr = none ∧ x.rk = none ∧ x.ivr = none ∧ x.cb = none ∧
    x.off = none ∧ x.ks = none ∧ x.cv = none

/-! ### CONSTRUCT -/

/-- CONSTRUCT with legal operands succeeds in every state of the instance and gives it the new
configuration, the padded IV and the running state of its engine (41_construct_setiv.md R147, R148,
R150, R154). -/
def Obligations.ConstructTakesTheConfiguration : Prop :=
  ∀ (s : State) (eng : Engine) (pad : Padding) (pers : Persistence) (key iv : List Byte),
    instanceExists s.sel = true → legalConfiguration eng pad pers = true →
    key.length ∈ [16, 24, 32] → 1 ≤ iv.length → iv.length ≤ 16 →
      ∃ x, exec (.construct eng pad pers key iv) s = .next (s.after ⟨0, 0, []⟩ x) ∧
        x.configured = true ∧ x.ivValid = true ∧ x.eng = some eng ∧ x.pad = some pad ∧
        x.pers = some pers ∧ x.klen = some (BitVec.ofNat 6 key.length) ∧
        x.nk = some (BitVec.ofNat 4 (key.length / 4)) ∧
        x.nr = some (BitVec.ofNat 4 (key.length / 4 + 6)) ∧ x.rk = some (keyExpansion key) ∧
        x.ivr = some (pad16 iv) ∧
        (eng = .ctr → x.cb = some (pad16 iv) ∧ x.off = some 0 ∧ x.cv = none) ∧
        (eng = .cbc → x.cv = some (pad16 iv) ∧ x.cb = none ∧ x.off = none ∧ x.ks = none)

/-- A successful CONSTRUCT leaves no keystream block of the instance's earlier life: `KS` holds no
value, also where the rules only call it discarded (log entry 9). -/
def Obligations.ConstructDiscardsTheKeystreamBlock : Prop :=
  ∀ (s t : State) (eng : Engine) (pad : Padding) (pers : Persistence) (key iv : List Byte),
    s.Inv → exec (.construct eng pad pers key iv) s = .next t → (t.inst s.sel).ks = none

/-- CONSTRUCT's checks in their order: the first that fails gives the cause, and the instance goes to
its reset state (41_construct_setiv.md R145, R149). -/
def Obligations.ConstructFailsOnTheFirstCheck : Prop :=
  ∀ (s : State) (eng : Engine) (pad : Padding) (pers : Persistence) (key iv : List Byte),
    instanceExists s.sel = true →
      let fails := fun status : BitVec 8 =>
        exec (.construct eng pad pers key iv) s = .next (s.after ⟨status, 0, []⟩ Instance.reset)
      if key.length ∉ [16, 24, 32] then fails 0x11
      else if eng = .ctr ∧ pad ≠ .none then fails 0x21
      else if eng = .ctr ∧ pers = .persistAcrossCalls then fails 0x31
      else if eng = .cbc ∧ pad ≠ .none ∧ pers = .persistAcrossCalls then fails 0x41
      else if iv = [] then fails 0x51
      else if 16 < iv.length then fails 0x61
      else legalConfiguration eng pad pers = true ∧ 1 ≤ iv.length ∧ iv.length ≤ 16

/-- IV padding: the IV bytes first, then zero bytes up to 16 (41_construct_setiv.md R143). -/
def Obligations.ShortIvsArePaddedWithZeros : Prop :=
  ∀ iv : List Byte, 1 ≤ iv.length → iv.length ≤ 16 →
    blockBytes (pad16 iv) = iv ++ List.replicate (16 - iv.length) 0 ∧
    (iv.length = 16 → blockBytes (pad16 iv) = iv) ∧
    blockBytes (pad16 [0x00, 0x01, 0x02, 0x03, 0x04, 0x05, 0x06, 0x07]) =
      [0x00, 0x01, 0x02, 0x03, 0x04, 0x05, 0x06, 0x07, 0, 0, 0, 0, 0, 0, 0, 0]

/-! ### SET_IV -/

/-- SET_IV with a legal IV on a constructed instance: `IVR`, the running state of the engine and
`IV_VALID` are set, everything else is kept (41_construct_setiv.md R152, R154). -/
def Obligations.SetIvLoadsTheRunningState : Prop :=
  ∀ (s : State) (iv : List Byte),
    let x := s.inst s.sel
    instanceExists s.sel = true → x.configured = true → 1 ≤ iv.length → iv.length ≤ 16 →
      (x.eng = some .ctr →
        exec (.setIv iv) s = .next (s.after ⟨0, 0, []⟩
          { x with ivr := some (pad16 iv), cb := some (pad16 iv), off := some 0, ivValid := true })) ∧
      (x.eng = some .cbc →
        exec (.setIv iv) s = .next (s.after ⟨0, 0, []⟩
          { x with ivr := some (pad16 iv), cv := some (pad16 iv), ivValid := true }))

/-- SET_IV with an empty or too long IV clears `IV_VALID` and leaves no value in `IVR` and the running
state, and keeps the configuration (41_construct_setiv.md R151, R153). -/
def Obligations.SetIvFailureInvalidatesTheIv : Prop :=
  ∀ (s : State) (iv : List Byte),
    let x := s.inst s.sel
    instanceExists s.sel = true → x.configured = true → (iv.length = 0 ∨ 16 < iv.length) →
      exec (.setIv iv) s = .next (s.after ⟨if iv.length = 0 then 0x51 else 0x61, 0, []⟩
        { x with ivValid := false, ivr := none, cb := none, off := none, ks := none, cv := none })

/-- SET_IV and CRYPT on an instance that is not constructed, and CRYPT on one without a valid IV,
answer `PreconditionError` and change nothing, whatever their operands (60_exceptions.md R273, R275). -/
def Obligations.PreconditionErrorsChangeNothing : Prop :=
  ∀ (s : State), let x := s.inst s.sel
    instanceExists s.sel = true →
      (x.configured = false → ∀ iv : List Byte,
        exec (.setIv iv) s = .next (s.after ⟨0x13, 0, []⟩ x)) ∧
      (x.configured = false → ∀ (cap : BitVec 64) (data : List Byte),
        exec (.crypt cap data) s = .next (s.after ⟨0x13, 0, []⟩ x)) ∧
      (x.configured = true → x.ivValid = false → ∀ (cap : BitVec 64) (data : List Byte),
        exec (.crypt cap data) s = .next (s.after ⟨0x23, 0, []⟩ x))

/-- No error is sticky: after a failed CONSTRUCT, SET_IV and CRYPT report `NOT_CONSTRUCTED`; after a
failed SET_IV, CRYPT reports `IV_NOT_VALID`, and a SET_IV with a legal IV then answers `OK` and leaves a
valid IV; and after any command a legal CONSTRUCT succeeds (60_exceptions.md R281). -/
def Obligations.FailuresAreReportedUntilRepaired : Prop :=
  ∀ (s : State) (eng : Engine) (pad : Padding) (pers : Persistence) (key iv iv' : List Byte)
    (cap : BitVec 64) (data : List Byte),
    s.Inv → instanceExists s.sel = true →
      (∀ t, exec (.construct eng pad pers key iv) s = .next t → t.responses.getLast? ≠
          some ⟨s.sel, ⟨0, 0, []⟩⟩ →
        exec (.setIv iv') t = .next (t.after ⟨0x13, 0, []⟩ (t.inst t.sel)) ∧
        exec (.crypt cap data) t = .next (t.after ⟨0x13, 0, []⟩ (t.inst t.sel))) ∧
      (∀ t, (s.inst s.sel).configured = true → exec (.setIv iv) s = .next t →
        t.responses.getLast? ≠ some ⟨s.sel, ⟨0, 0, []⟩⟩ →
        exec (.crypt cap data) t = .next (t.after ⟨0x23, 0, []⟩ (t.inst t.sel)) ∧
        (1 ≤ iv'.length → iv'.length ≤ 16 → ∃ u, exec (.setIv iv') t = .next u ∧
          u.responses = t.responses ++ [⟨s.sel, ⟨0, 0, []⟩⟩] ∧
          (u.inst s.sel).configured = true ∧ (u.inst s.sel).ivValid = true)) ∧
      (∀ t i, exec i s = .next t → legalConfiguration eng pad pers = true →
        key.length ∈ [16, 24, 32] → 1 ≤ iv.length → iv.length ≤ 16 →
        ∃ u, exec (.construct eng pad pers key iv) t = .next u ∧
          (u.inst u.sel).configured = true ∧ (u.inst u.sel).ivValid = true)

/-- CONSTRUCT and SET_IV are idempotent: a second one with the same operands that succeeds leaves the
instance as the first did (20_memory.md R58). -/
def Obligations.ConfigurationCommandsAreIdempotent : Prop :=
  ∀ (s t u : State) (i : Instr), s.Inv → (∀ cap data, i ≠ .crypt cap data) →
    exec i s = .next t → t.responses.getLast? = some ⟨s.sel, ⟨0, 0, []⟩⟩ → exec i t = .next u →
      u.inst s.sel = t.inst s.sel

/-! ### Responses and errors -/

/-- The status byte of each error (30_encoding.md R80, 60_exceptions.md R271, R272). -/
def Obligations.StatusBytesOfTheErrors : Prop :=
  (raise .keyLength).status = 0x11 ∧ (raise .ctrPadding).status = 0x21 ∧
  (raise .ctrPersist).status = 0x31 ∧ (raise .padPersist).status = 0x41 ∧
  (raise .ivEmpty).status = 0x51 ∧ (raise .ivTooLong).status = 0x61 ∧
  (raise .capacity).status = 0x02 ∧ (raise .notConstructed).status = 0x13 ∧
  (raise .ivNotValid).status = 0x23 ∧ (raise .reservedOpcode).status = 0x14 ∧
  (raise .reservedBits).status = 0x24 ∧ (raise .reservedPad).status = 0x34 ∧
  ∀ out, (respondOk out).status = 0x00

/-- Every command returns exactly one response, with a status the table of causes lists for it;
`OUTLEN` is the number of output bytes, and there are none but for a successful CRYPT
(30_encoding.md R80, 60_exceptions.md R272). -/
def Obligations.OneResponseWithAListedStatus : Prop :=
  ∀ (i : Instr) (s t : State), i.wf = true → exec i s = .next t →
    ∃ r : Response, t.responses = s.responses ++ [⟨s.sel, r⟩] ∧
      r.outLen.toNat = r.out.length ∧
      (match i with
        | .construct _ _ _ _ _ =>
          r.status ∈ [0x00, 0x11, 0x21, 0x31, 0x41, 0x51, 0x61] ∧ r.out = []
        | .setIv _ => r.status ∈ [0x00, 0x13, 0x51, 0x61] ∧ r.out = []
        | .crypt _ _ => r.status ∈ [0x00, 0x02, 0x13, 0x23] ∧ (r.status ≠ 0x00 → r.out = []))

/-- The response and the registers after a command depend only on the instance it is issued to and on
the record (60_exceptions.md R279). -/
def Obligations.CommandsAreDeterminedByTheirInstance : Prop :=
  ∀ (s s' t : State) (k k' : Nat) (record : List Byte) (queue queue' : List HostEvent),
    s.input = .command k record :: queue → s'.input = .command k' record :: queue' →
    instanceExists k' = true → s.inst k = s'.inst k' → step s = .next t →
      ∃ r x, t = State.after { s with sel := k, input := queue } r x ∧
        step s' = .next (State.after { s' with sel := k', input := queue' } r x)

/-! ### CRYPT: capacity -/

/-- `CapacityError` exactly when `CAP` is below the required length, with no effect on the instance
(60_exceptions.md R274, 42_ctr_engine.md R176, 43_cbc_engine.md R213). -/
def Obligations.CapacityErrorBelowTheRequiredLength : Prop :=
  ∀ (s : State) (cap : BitVec 64) (data : List Byte) (rk : List Word) (nr : BitVec 4),
    let x := s.inst s.sel
    instanceExists s.sel = true →
      (∀ cb off, x.CtrReady rk nr cb off →
        (cap.toNat < data.length ↔
          exec (.crypt cap data) s = .next (s.after ⟨0x02, 0, []⟩ x))) ∧
      (∀ pad start, x.CbcReady pad rk nr start →
        (cap.toNat < data.length + (if pad = .pkcs5 then 16 - data.length % 16 else 0) ↔
          exec (.crypt cap data) s = .next (s.after ⟨0x02, 0, []⟩ x)))

/-- The output of a CRYPT fits the capacity the host gave, and the host's bytes beyond `OUTLEN` are
untouched by a response that is no CapacityError (20_memory.md R50). -/
def Obligations.OutputFitsTheHostBuffer : Prop :=
  ∀ (s t : State) (cap : BitVec 64) (data : List Byte), exec (.crypt cap data) s = .next t →
    ∃ r, t.responses = s.responses ++ [⟨s.sel, r⟩] ∧ r.out.length ≤ cap.toNat ∧
      ∀ (n : Nat) (buffer : List Byte), buffer.length = cap.toNat → r.status ≠ 0x02 →
        (hostBufferAfter n r buffer).length = buffer.length ∧
        (hostBufferAfter n r buffer).take r.out.length = r.out ∧
        (hostBufferAfter n r buffer).drop r.out.length = buffer.drop r.out.length

/-! ### CTR -/

/-- `Inc64`: the counter is the big-endian number in bytes 8..15, it grows by 1 modulo 2^64, and the
nonce bytes 0..7 are unchanged (42_ctr_engine.md R170, R171, R172). -/
def Obligations.IncrementOfTheCounterBlock : Prop :=
  ∀ cb : Block,
    let ctr := fun b : Block => ((List.range 8).map fun i =>
      (blockByte b (8 + i)).toNat * 256 ^ (7 - i)).sum
    ctr (inc64 cb) = (ctr cb + 1) % 2 ^ 64 ∧ ∀ i, i < 8 → blockByte (inc64 cb) i = blockByte cb i

/-- CRYPT on a CTR instance: each byte is XORed with its byte of the keystream, the counter advances
`advances(o, N)` times and `OFF` ends at `(o + N) mod 16`; nothing else changes
(42_ctr_engine.md R173, R174, R175, R177). -/
def Obligations.CtrCryptXorsTheKeystream : Prop :=
  ∀ (s : State) (cap : BitVec 64) (data : List Byte) (rk : List Word) (nr : BitVec 4) (cb : Block)
    (off : BitVec 4),
    let x := s.inst s.sel
    instanceExists s.sel = true → x.CtrReady rk nr cb off → data.length ≤ cap.toNat →
      exec (.crypt cap data) s = .next (s.after
        (respondOk ((List.range data.length).map fun i =>
          data.getD i 0 ^^^ keystreamByte rk nr cb off (x.ks.getD 0) (off.toNat + i)))
        { x with
          cb := some (counterBlockAfter cb (advances off.toNat data.length))
          off := some (BitVec.ofNat 4 (off.toNat + data.length))
          ks := keystreamBlockAfter rk nr cb x.ks (advances off.toNat data.length) })

/-- `advances(o, N)` counts the bytes at which the keystream position is a multiple of 16; from
`o = 0` it is `ceil(N/16)` (42_ctr_engine.md R177). -/
def Obligations.AdvancesCountsTheBlockStarts : Prop :=
  ∀ o n : Nat, o < 16 →
    advances o n = ((List.range n).filter fun i => (o + i) % 16 == 0).length ∧
    (o = 0 → advances o n = (n + 15) / 16)

/-- The streaming property: however a plaintext is cut into chunks, CRYPTs of the chunks in order
return its ciphertext and leave the same registers (42_ctr_engine.md R178). -/
def Obligations.CtrStreamingProperty : Prop :=
  ∀ (s : State) (chunks : List (BitVec 64 × List Byte)) (cap : BitVec 64) (rk : List Word)
    (nr : BitVec 4) (cb : Block) (off : BitVec 4),
    s.Inv → instanceExists s.sel = true → (s.inst s.sel).CtrReady rk nr cb off →
    (∀ c ∈ chunks, c.2.length ≤ c.1.toNat) → (chunks.map Prod.snd).flatten.length ≤ cap.toNat →
      ∃ (t u : State) (outs : List (List Byte)),
        exec (.crypt cap (chunks.map Prod.snd).flatten) s = .next t ∧
        execAll (chunks.map fun c => .crypt c.1 c.2) s = .next u ∧
        t.instances = u.instances ∧
        t.responses = s.responses ++ [⟨s.sel, respondOk outs.flatten⟩] ∧
        u.responses = s.responses ++ outs.map fun out => ⟨s.sel, respondOk out⟩

/-- CTR is its own inverse: from the same registers, CRYPT of the ciphertext returns the plaintext
(42_ctr_engine.md R179). -/
def Obligations.CtrIsItsOwnInverse : Prop :=
  ∀ (s s' : State) (cap cap' : BitVec 64) (plain : List Byte) (rk : List Word) (nr : BitVec 4)
    (cb : Block) (off : BitVec 4),
    instanceExists s.sel = true → instanceExists s'.sel = true →
    s.inst s.sel = s'.inst s'.sel → (s.inst s.sel).CtrReady rk nr cb off →
    plain.length ≤ cap.toNat → plain.length ≤ cap'.toNat →
      ∃ cipher x, exec (.crypt cap plain) s = .next (s.after (respondOk cipher) x) ∧
        exec (.crypt cap' cipher) s' = .next (s'.after (respondOk plain) x)

/-- An empty CTR CRYPT answers `OK` with no output and changes nothing, whatever the capacity
(42_ctr_engine.md R181). -/
def Obligations.EmptyCtrCryptChangesNothing : Prop :=
  ∀ (s : State) (cap : BitVec 64), let x := s.inst s.sel
    instanceExists s.sel = true → x.configured = true → x.ivValid = true → x.eng = some .ctr →
      exec (.crypt cap []) s = .next (s.after ⟨0, 0, []⟩ x)

/-! ### CBC -/

/-- CRYPT with PAD None: the complete blocks are chained from where the mode says, the residual is
copied in clear, and `CV` becomes the last ciphertext block or stays at the start
(43_cbc_engine.md R204, R205, R206, R207, R209). -/
def Obligations.CbcWithoutPadding : Prop :=
  ∀ (s : State) (cap : BitVec 64) (data : List Byte) (rk : List Word) (nr : BitVec 4) (start : Block),
    let x := s.inst s.sel
    let n := data.length / 16
    let cs := standardCbc rk nr start (blocksOf n data)
    instanceExists s.sel = true → x.CbcReady .none rk nr start → data.length ≤ cap.toNat →
      exec (.crypt cap data) s = .next (s.after (respondOk (blocksBytes cs ++ data.drop (16 * n)))
        { x with cv := some (cs.getLast?.getD start) })

/-- CRYPT with PAD Pkcs5 is standard CBC of the data followed by `npad` bytes of value `npad`
(43_cbc_engine.md R210, R212, R214). -/
def Obligations.CbcWithPkcs5IsStandardCbcOfThePaddedData : Prop :=
  ∀ (s : State) (cap : BitVec 64) (data : List Byte) (rk : List Word) (nr : BitVec 4) (start : Block),
    let x := s.inst s.sel
    let npad := 16 - data.length % 16
    let padded := data ++ List.replicate npad (BitVec.ofNat 8 npad)
    let cs := standardCbc rk nr start (blocksOf (data.length / 16 + 1) padded)
    instanceExists s.sel = true → x.CbcReady .pkcs5 rk nr start →
    data.length + npad ≤ cap.toNat →
      exec (.crypt cap data) s = .next (s.after (respondOk (blocksBytes cs))
        { x with cv := cs.getLast? })

/-- CRYPT with PAD CipherTextStealing and at least 16 bytes: without a residual it is standard CBC;
with one, the encryption of the zero-padded residual takes the place of the last ciphertext block,
whose first bytes follow it (43_cbc_engine.md R207, R211, R212). -/
def Obligations.CiphertextStealing : Prop :=
  ∀ (s : State) (cap : BitVec 64) (data : List Byte) (rk : List Word) (nr : BitVec 4) (start : Block),
    let x := s.inst s.sel
    let n := data.length / 16
    let res := data.length % 16
    let cs := standardCbc rk nr start (blocksOf n data)
    let last := cs.getLast?.getD start
    let e := aesEncrypt rk nr.toNat
      (blockOfBytes (data.drop (16 * n) ++ List.replicate (16 - res) 0) ^^^ last)
    instanceExists s.sel = true → x.CbcReady .cipherTextStealing rk nr start →
    16 ≤ data.length → data.length ≤ cap.toNat →
      exec (.crypt cap data) s =
        if res = 0 then .next (s.after (respondOk (blocksBytes cs)) { x with cv := some last })
        else .next (s.after
          (respondOk (blocksBytes cs.dropLast ++ blockBytes e ++ (blockBytes last).take res))
          { x with cv := some e })

/-- CRYPT with PAD CipherTextStealing and fewer than 16 bytes returns its input, and `CV` is where the
call started (43_cbc_engine.md R204, R208). -/
def Obligations.ShortCiphertextStealingPassesThrough : Prop :=
  ∀ (s : State) (cap : BitVec 64) (data : List Byte) (rk : List Word) (nr : BitVec 4) (start : Block),
    let x := s.inst s.sel
    instanceExists s.sel = true → x.CbcReady .cipherTextStealing rk nr start →
    data.length < 16 → data.length ≤ cap.toNat →
      exec (.crypt cap data) s = .next (s.after (respondOk data) { x with cv := some start })

/-- The output length of a successful CBC CRYPT by padding (43_cbc_engine.md R202). -/
def Obligations.CbcOutputLength : Prop :=
  ∀ (s t : State) (cap : BitVec 64) (data : List Byte) (rk : List Word) (nr : BitVec 4)
    (start : Block) (pad : Padding) (r : Response),
    (s.inst s.sel).CbcReady pad rk nr start → data.length < 2 ^ 32 →
    exec (.crypt cap data) s = .next t → t.responses = s.responses ++ [⟨s.sel, r⟩] →
    r.status = 0x00 →
      r.out.length = r.outLen.toNat ∧
      (pad = .none → r.out.length = data.length) ∧
      (pad = .cipherTextStealing → r.out.length = data.length) ∧
      (pad = .pkcs5 → r.out.length = data.length + 16 - data.length % 16 ∧ r.out.length % 16 = 0 ∧
        16 ≤ r.out.length ∧ data.length + 1 ≤ r.out.length ∧ r.out.length ≤ data.length + 16)

/-- Under RollingPerUnit every CRYPT starts from `IVR`: the same call again gives the same output and
leaves the same registers (20_memory.md R58, 43_cbc_engine.md R204). -/
def Obligations.RollingCbcRepeats : Prop :=
  ∀ (s : State) (cap : BitVec 64) (data : List Byte) (rk : List Word) (nr : BitVec 4) (start : Block)
    (pad : Padding),
    s.Inv → instanceExists s.sel = true → (s.inst s.sel).CbcReady pad rk nr start →
    (s.inst s.sel).pers = some .rollingPerUnit → data.length + 16 ≤ cap.toNat →
      ∃ r t u, exec (.crypt cap data) s = .next t ∧ exec (.crypt cap data) t = .next u ∧
        t.responses = s.responses ++ [⟨s.sel, r⟩] ∧ u.responses = t.responses ++ [⟨s.sel, r⟩] ∧
        u.instances = t.instances

/-- Under PersistAcrossCalls the chain continues: calls on two chunks, the first of complete blocks,
give the output and the registers of one call on both (43_cbc_engine.md R217). -/
def Obligations.PersistentCbcContinues : Prop :=
  ∀ (s : State) (cap cap1 cap2 : BitVec 64) (first second : List Byte) (rk : List Word)
    (nr : BitVec 4) (start : Block),
    s.Inv → instanceExists s.sel = true → (s.inst s.sel).CbcReady .none rk nr start →
    (s.inst s.sel).pers = some .persistAcrossCalls → first.length % 16 = 0 →
    first.length ≤ cap1.toNat → second.length ≤ cap2.toNat →
    first.length + second.length ≤ cap.toNat →
      ∃ t u v out1 out2, exec (.crypt cap (first ++ second)) s = .next t ∧
        exec (.crypt cap1 first) s = .next u ∧ exec (.crypt cap2 second) u = .next v ∧
        t.responses = s.responses ++ [⟨s.sel, respondOk (out1 ++ out2)⟩] ∧
        v.responses = s.responses ++ [⟨s.sel, respondOk out1⟩, ⟨s.sel, respondOk out2⟩] ∧
        v.instances = t.instances

/-! ### Frames -/

/-- A command touches no instance but the one it is issued to, and leaves the host's queue as it is
(60_exceptions.md R287). -/
def Obligations.OtherInstancesAreUntouched : Prop :=
  ∀ (i : Instr) (s t : State), exec i s = .next t →
    (∀ k, k ≠ s.sel → t.inst k = s.inst k) ∧ t.sel = s.sel ∧ t.input = s.input ∧
      ∃ r, t.responses = s.responses ++ [⟨s.sel, r⟩]

/-- SET_IV writes no register of the configuration, and a SET_IV that does not fail with a
ConfigurationError does not write `KS` (10_state.md R30, R36; 41_construct_setiv.md R153, R154). -/
def Obligations.SetIvFrame : Prop :=
  ∀ (s t : State) (iv : List Byte), s.Inv → exec (.setIv iv) s = .next t →
    let x := s.inst s.sel
    let y := t.inst s.sel
    y.configured = x.configured ∧ y.eng = x.eng ∧ y.pad = x.pad ∧ y.pers = x.pers ∧
    y.klen = x.klen ∧ y.nk = x.nk ∧ y.nr = x.nr ∧ y.rk = x.rk ∧
    (1 ≤ iv.length → iv.length ≤ 16 → y.ks = x.ks) ∧
    (x.eng = some .ctr → 1 ≤ iv.length → iv.length ≤ 16 → y.cv = x.cv) ∧
    (x.eng = some .cbc → 1 ≤ iv.length → iv.length ≤ 16 → y.cb = x.cb ∧ y.off = x.off)

/-- CRYPT writes no register but `CB[8:16)`, `OFF` and `KS` on a CTR instance, and none but `CV` on a
CBC instance (42_ctr_engine.md R171, R175; 43_cbc_engine.md R203). -/
def Obligations.CryptFrame : Prop :=
  ∀ (s t : State) (cap : BitVec 64) (data : List Byte),
    tableWf 0 s.instances = true → exec (.crypt cap data) s = .next t →
    let x := s.inst s.sel
    let y := t.inst s.sel
    (y.configured = x.configured ∧ y.ivValid = x.ivValid ∧ y.eng = x.eng ∧ y.pad = x.pad ∧
      y.pers = x.pers ∧ y.klen = x.klen ∧ y.nk = x.nk ∧ y.nr = x.nr ∧ y.rk = x.rk ∧
      y.ivr = x.ivr) ∧
    (x.eng = some .ctr → y.cv = x.cv ∧ y.cb.map nonceOf = x.cb.map nonceOf) ∧
    (x.eng = some .cbc → y.cb = x.cb ∧ y.off = x.off ∧ y.ks = x.ks)

/-! ### Invariants and whole-machine rules -/

/-- The reset state meets the invariants (10_state.md R34, R37). -/
def Obligations.ResetMeetsTheInvariants : Prop := State.reset.Inv

/-- Every step keeps the invariants of the block: the guards of 10_state.md R37, the legal
configuration, the key schedule of some key, the keystream block behind `OFF`, and the canonical
table of instances. -/
def Obligations.EveryStepKeepsTheInvariants : Prop :=
  ∀ s t : State, s.Inv → step s = .next t → t.Inv

/-- Under the invariants every command on an instance the block has completes: no rule reads a
register that holds no value (10_state.md R37, 60_exceptions.md R282). -/
def Obligations.NoCommandReadsARegisterWithoutValue : Prop :=
  ∀ (i : Instr) (s : State), s.Inv → instanceExists s.sel = true → ∃ t, exec i s = .next t

/-- From a state that meets the invariants, with nothing delivered but whole records for instances the
block has and resets, the machine never stops. -/
def Obligations.TheMachineNeverStops : Prop :=
  ∀ (n : Nat) (s : State), s.Inv → s.inputAllowed = true →
    ∃ t : State, core.run n s = .next t ∧ t.Inv ∧ t.inputAllowed = true

/-- A register that holds no value is not read as a value: CRYPT stops where the engine, or the
keystream block in the middle of a block, is missing (10_state.md R20). -/
def Obligations.ReadingNoValueFaults : Prop :=
  ∀ (s : State) (cap : BitVec 64) (data : List Byte), let x := s.inst s.sel
    instanceExists s.sel = true → x.configured = true → x.ivValid = true →
      (x.eng = none → exec (.crypt cap data) s = .fault (.noValue .eng)) ∧
      (x.eng = some .ctr → x.ks = none → data ≠ [] → data.length ≤ cap.toNat →
        ∀ off, x.off = some off → off ≠ 0 →
          exec (.crypt cap data) s = .fault (.noValue .ks))

/-- Commands to different instances commute: in either order they leave the same registers and each
instance returns the same responses (20_memory.md R61, 60_exceptions.md R287). Where the block does
not have the second instance, both orders stop with the model's refusal that says so (log entry 6). -/
def Obligations.CommandsToDifferentInstancesCommute : Prop :=
  ∀ (s : State) (j k : Nat) (a b : List Byte) (queue : List HostEvent), s.Inv → j ≠ k →
    instanceExists j = true → recordWhole a = true → recordWhole b = true →
      let one := core.run 2 { s with input := .command j a :: .command k b :: queue }
      let two := core.run 2 { s with input := .command k b :: .command j a :: queue }
      if instanceExists k = true then
        ∃ t u : State, one = .next t ∧ two = .next u ∧ t.instances = u.instances ∧
          ∀ m, t.answersOf m = u.answersOf m
      else one = .refused (Refusal.noSuchInstance k) ∧ two = .refused (Refusal.noSuchInstance k)

/-! ### The AES core -/

/-- The arithmetic of GF(2^8): multiplication is commutative and associative, distributes over XOR,
has 01 as identity and 00 absorbing (40_aes_core.md R100, R102). -/
def Obligations.FieldMultiplicationLaws : Prop :=
  (∀ a b : Byte, gmul a b = gmul b a) ∧
  (∀ a b c : Byte, gmul (gmul a b) c = gmul a (gmul b c)) ∧
  (∀ a b c : Byte, gmul a (b ^^^ c) = gmul a b ^^^ gmul a c) ∧
  (∀ a : Byte, gmul a 0x01 = a ∧ gmul a 0x00 = 0x00 ∧ gmul a 0x02 = xtime a) ∧
  gmul 0x57 0x83 = 0xc1 ∧ gmul 0x57 0x13 = 0xfe

/-- The table of the S-box is the affine map of the inverse, and the inverse is one
(40_aes_core.md R103, R104). -/
def Obligations.SboxTableIsTheAffineMapOfTheInverse : Prop :=
  (∀ a : Byte, sbox a = sboxAffine (ginv a)) ∧ ginv 0x00 = 0x00 ∧
  (∀ a : Byte, a ≠ 0x00 → gmul a (ginv a) = 0x01 ∧ ∀ b : Byte, gmul a b = 0x01 → b = ginv a)

/-- The S-box is a bijection on bytes and has no fixed point (40_aes_core.md R104). -/
def Obligations.SboxIsABijectionWithoutFixedPoint : Prop :=
  Function.Bijective sbox ∧ ∀ a : Byte, sbox a ≠ a

/-- The key schedule of a key of legal length: `4(Nr+1)` words, the first `Nk` of them the key, and
every other one by the recurrence (40_aes_core.md R106, R108). -/
def Obligations.KeyExpansionRecurrence : Prop :=
  ∀ key : List Byte, key.length ∈ [16, 24, 32] →
    let nk := key.length / 4
    let w := fun i => (keyExpansion key).getD i 0
    (keyExpansion key).length = 4 * (nk + 6 + 1) ∧
    (∀ i, i < nk → w i = wordOfBytes (key.getD (4 * i) 0) (key.getD (4 * i + 1) 0)
      (key.getD (4 * i + 2) 0) (key.getD (4 * i + 3) 0)) ∧
    ∀ i, nk ≤ i → i < 4 * (nk + 6 + 1) →
      w i = w (i - nk) ^^^
        (if i % nk = 0 then subWord (rotWord (w (i - 1))) ^^^ rcon (i / nk)
          else if 6 < nk ∧ i % nk = 4 then subWord (w (i - 1))
          else w (i - 1))

/-- The four transformations of a round, cell by cell (40_aes_core.md R112, R113, R114, R115). -/
def Obligations.RoundTransformationsCellByCell : Prop :=
  ∀ (s : Block) (rk : List Word) (n r c : Nat), r < 4 → c < 4 →
    cell (addRoundKey rk s n) r c = cell s r c ^^^ wordByte (rk.getD (4 * n + c) 0) r ∧
    cell (subBytes s) r c = sbox (cell s r c) ∧
    cell (shiftRows s) r c = cell s r ((c + r) % 4) ∧
    cell (mixColumns s) r c =
      gmul 0x02 (cell s r c) ^^^ gmul 0x03 (cell s ((r + 1) % 4) c) ^^^
        cell s ((r + 2) % 4) c ^^^ cell s ((r + 3) % 4) c

/-- For fixed round keys the cipher is a permutation of the blocks (40_aes_core.md R117). -/
def Obligations.EncryptionIsAPermutation : Prop :=
  ∀ (rk : List Word) (nr : Nat), Function.Bijective (aesEncrypt rk nr)

/-- The FIPS-197 examples for the three key lengths (40_aes_core.md R117, 95_test_vectors.md §1.5). -/
def Obligations.FipsExamples : Prop :=
  let key := fun n => (List.range n).map fun i => BitVec.ofNat 8 i
  let plain : Block := 0x00112233445566778899aabbccddeeff
  aesEncrypt (keyExpansion (key 16)) 10 plain = 0x69c4e0d86a7b0430d8cdb78070b4c55a ∧
  aesEncrypt (keyExpansion (key 24)) 12 plain = 0xdda97ca4864cdfe06eaf70a0ec0d7191 ∧
  aesEncrypt (keyExpansion (key 32)) 14 plain = 0x8ea2b7ca516745bfeafc49904b496089

/-! ### The metadata record and the assembler -/

/-- The cipher stream of a sample under a valid record has as many bytes as the record says cipher
bytes (44_metadata.md R244, R248). -/
def Obligations.CipherStreamLength : Prop :=
  ∀ (m : SampleMeta) (sample : List Byte), metaValid m sample.length = true →
    (cipherStream m sample).length = (m.subsamples.map fun e => e.cipherBytes.toNat).sum

/-- The spans of a record lie where it says: span `j` is the `cipherBytes_j` bytes at
`off_j + clearBytes_j` (44_metadata.md R242, R248). -/
def Obligations.CipherSpansLieAtTheirOffsets : Prop :=
  ∀ (m : SampleMeta) (sample : List Byte) (j : Nat) (h : j < m.subsamples.length),
    (cipherSpans m sample).getD j [] =
      (sample.drop (((m.subsamples.take j).map fun e => e.clearBytes.toNat + e.cipherBytes.toNat).sum +
        m.subsamples[j].clearBytes.toNat)).take m.subsamples[j].cipherBytes.toNat

/-- A cenc sample as one logical stream: SET_IV and one CRYPT for each nonzero cipher span give, joined,
the output of SET_IV and one CRYPT of the whole cipher stream, and leave the same registers
(44_metadata.md R251, 42_ctr_engine.md R178). -/
def Obligations.CencSpansAreOneLogicalStream : Prop :=
  ∀ (m : SampleMeta) (sample : List Byte) (s : State) (cap : BitVec 64) (rk : List Word)
    (nr : BitVec 4),
    let x := s.inst s.sel
    s.Inv → instanceExists s.sel = true → x.configured = true → x.eng = some .ctr →
    x.rk = some rk → x.nr = some nr → metaValid m sample.length = true →
    (cipherStream m sample).length ≤ cap.toNat →
      ∃ (t u : State) (out : List Byte) (outs : List (List Byte)),
        execAll [.setIv m.iv, .crypt cap (cipherStream m sample)] s = .next t ∧
        execAll (cencCommands m sample) s = .next u ∧ t.instances = u.instances ∧
        t.responses = s.responses ++ [⟨s.sel, ⟨0, 0, []⟩⟩, ⟨s.sel, respondOk out⟩] ∧
        u.responses = s.responses ++ ⟨s.sel, ⟨0, 0, []⟩⟩ ::
          (outs.map fun o => ⟨s.sel, respondOk o⟩) ∧
        outs.flatten = out

/-- A cbcs sample on a CBC instance with PAD None and PersistAcrossCalls: SET_IV and one CRYPT for each
run of encrypted blocks give, joined, standard CBC of the joined runs from the padded IV; the skipped
blocks do not break the chain (44_metadata.md R251, 43_cbc_engine.md R217). -/
def Obligations.CbcsRunsAreOneChain : Prop :=
  ∀ (reading : PatternReading) (m : SampleMeta) (sample : List Byte) (s : State) (rk : List Word)
    (nr : BitVec 4),
    let x := s.inst s.sel
    let runs := encryptedRuns reading m sample
    s.Inv → instanceExists s.sel = true → x.configured = true → x.eng = some .cbc →
    x.pad = some .none → x.pers = some .persistAcrossCalls → x.rk = some rk → x.nr = some nr →
    metaValid m sample.length = true → (∀ run ∈ runs, run.length % 16 = 0) →
      ∃ (t : State) (outs : List (List Byte)),
        execAll (cbcsCommands reading m sample) s = .next t ∧
        t.responses = s.responses ++ ⟨s.sel, ⟨0, 0, []⟩⟩ ::
          (outs.map fun o => ⟨s.sel, respondOk o⟩) ∧
        outs.flatten = blocksBytes (standardCbc rk nr (pad16 m.iv)
          (blocksOf (runs.flatten.length / 16) runs.flatten))

/-- Under a pattern of `N` encrypted and `M` clear blocks, each run of `N + M` blocks has its first `N`
encrypted and the others clear (44_metadata.md R249). -/
def Obligations.PatternEncryptsTheFirstBlocksOfEachRun : Prop :=
  ∀ n m q i : Nat, i < n + m → (patternEncrypts n m (q * (n + m) + i) = true ↔ i < n)

/-- What the assembler accepts has an encoding, and the pseudo-commands expand as the table says: the
capacity of `CRYPT data=<d>` is enough for every padding (30_encoding.md R88, R89). -/
def Obligations.AssembledCommandsEncode : Prop :=
  (∀ (line : List Char) (i : Instr), assembleLine line = some i → i.wf = true) ∧
  (∀ key iv, pseudoConstructCtr key iv = .construct .ctr .none .rollingPerUnit key iv) ∧
  (∀ pad key iv, pseudoConstructCbc pad key iv = .construct .cbc pad .rollingPerUnit key iv) ∧
  (∀ data : List Byte, data.length < 2 ^ 32 → ∃ cap : BitVec 64,
    pseudoCrypt data = .crypt cap data ∧ cap.toNat = data.length + 16 ∧
    ∀ pad, requiredLength pad data.length ≤ cap.toNat)
end

