-- ==== Sys2Proof/Laws/Block.lean ====
section
/-!
SUPPORT. Blocks and their bytes: building a block and reading it back are inverse to each other.
-/
namespace Sys2Proof.Machine

/-- `withValue` is application: it only fixes when the argument is computed. -/
@[simp] theorem withValue_eq {n : Nat} {α : Type} (b : BitVec n) (k : BitVec n → α) :
    withValue b k = k b := by
  unfold withValue
  split
  · rename_i h
    rw [show b = 0 from BitVec.eq_of_toNat_eq (by simpa using h)]
  · rename_i m h
    exact congrArg k (BitVec.eq_of_toNat_eq (by rw [← Nat.succ_eq_add_one, ← h]; simp))

/-- Byte `i` of the block whose bytes are `f` is `f i`. -/
theorem blockByte_blockOfFn (f : Nat → Byte) (i : Nat) (h : i < 16) :
    blockByte (blockOfFn f) i = f i := by
  show BitVec.extractLsb' (n := 8+8+8+8+8+8+8+8+8+8+8+8+8+8+8+8) _ 8 _ = _
  unfold blockOfFn
  interval_cases i <;>
    simp (disch := omega) only [Nat.reduceMul, Nat.reduceSub,
      BitVec.extractLsb'_append_eq_of_add_le, BitVec.extractLsb'_append_eq_of_le,
      BitVec.extractLsb'_eq_self]

/-- A block is the block of its bytes. -/
@[simp] theorem blockOfFn_blockByte (b : Block) : blockOfFn (blockByte b) = b := by
  show ((b.extractLsb' 120 8 ++ b.extractLsb' 112 8 ++ b.extractLsb' 104 8 ++ b.extractLsb' 96 8 ++
    b.extractLsb' 88 8 ++ b.extractLsb' 80 8 ++ b.extractLsb' 72 8 ++ b.extractLsb' 64 8 ++
    b.extractLsb' 56 8 ++ b.extractLsb' 48 8 ++ b.extractLsb' 40 8 ++ b.extractLsb' 32 8 ++
    b.extractLsb' 24 8 ++ b.extractLsb' 16 8 ++ b.extractLsb' 8 8 ++ b.extractLsb' 0 8 :
      BitVec (8+8+8+8+8+8+8+8+8+8+8+8+8+8+8+8))) = b
  repeat rw [BitVec.extractLsb'_append_extractLsb'_eq_extractLsb' (by omega)]
  exact BitVec.extractLsb'_eq_self

/-- Two blocks with equal bytes are equal. -/
theorem block_ext {a b : Block} (h : ∀ i, i < 16 → blockByte a i = blockByte b i) : a = b := by
  rw [← blockOfFn_blockByte a, ← blockOfFn_blockByte b]
  simp only [blockOfFn]
  simp [h]

@[simp] theorem blockBytes_length (b : Block) : (blockBytes b).length = 16 := by
  simp [blockBytes]

theorem blockBytes_getD (b : Block) (i : Nat) (h : i < 16) :
    (blockBytes b).getD i 0 = blockByte b i := by
  simp [blockBytes, List.getD, h]

/-- A block is the block of its list of bytes. -/
@[simp] theorem blockOfBytes_blockBytes (b : Block) : blockOfBytes (blockBytes b) = b :=
  block_ext fun i h => by
    rw [blockOfBytes, blockByte_blockOfFn _ i h, blockBytes_getD b i h]

/-- 16 bytes are the bytes of their block. -/
theorem blockBytes_blockOfBytes (bytes : List Byte) (h : bytes.length = 16) :
    blockBytes (blockOfBytes bytes) = bytes := by
  apply List.ext_getElem
  · simp [h]
  · intro i h1 h2
    have hi : i < 16 := by simpa using h1
    simp [blockBytes, blockOfBytes, blockByte_blockOfFn _ i hi, List.getD, h2]

@[simp] theorem blocksBytes_nil : blocksBytes [] = [] := rfl

@[simp] theorem blocksBytes_cons (b : Block) (bs : List Block) :
    blocksBytes (b :: bs) = blockBytes b ++ blocksBytes bs := rfl

@[simp] theorem blocksBytes_length (bs : List Block) : (blocksBytes bs).length = 16 * bs.length := by
  induction bs with
  | nil => rfl
  | cons b bs ih => simp [ih]; omega

@[simp] theorem blocksOf_length (n : Nat) (bytes : List Byte) : (blocksOf n bytes).length = n := by
  induction n generalizing bytes with
  | zero => rfl
  | succ n ih => simp [blocksOf, ih]

/-- The first blocks of a stream do not depend on what follows them. -/
theorem blocksOf_append (n m : Nat) (a b : List Byte) (h : a.length = 16 * n) :
    blocksOf (n + m) (a ++ b) = blocksOf n a ++ blocksOf m b := by
  induction n generalizing a with
  | zero =>
    have : a = [] := List.length_eq_zero_iff.mp (by omega)
    simp [this, blocksOf]
  | succ n ih =>
    have h16 : 16 ≤ a.length := by omega
    rw [show n + 1 + m = n + m + 1 by omega]
    simp only [blocksOf, List.cons_append]
    rw [List.take_append_of_le_length h16, List.drop_append_of_le_length h16,
      ih (a.drop 16) (by simp; omega)]

end Sys2Proof.Machine
end

