-- ==== Sys2Proof/Laws/State.lean ====
section
/-!
SUPPORT. One lemma for each field of the state and each update of it.
-/
namespace Sys2Proof.Machine

/-! ### `State.issue` -/

@[simp] theorem State.issue_instances (s : State) (k : Nat) (rest : List HostEvent) :
    (s.issue k rest).instances = s.instances := rfl

@[simp] theorem State.issue_sel (s : State) (k : Nat) (rest : List HostEvent) :
    (s.issue k rest).sel = k := rfl

@[simp] theorem State.issue_input (s : State) (k : Nat) (rest : List HostEvent) :
    (s.issue k rest).input = rest := rfl

@[simp] theorem State.issue_responses (s : State) (k : Nat) (rest : List HostEvent) :
    (s.issue k rest).responses = s.responses := rfl

@[simp] theorem State.issue_inst (s : State) (k : Nat) (rest : List HostEvent) (j : Nat) :
    (s.issue k rest).inst j = s.inst j := rfl

/-! ### `State.setInst` -/

@[simp] theorem State.setInst_instances (s : State) (k : Nat) (x : Instance) :
    (s.setInst k x).instances = storeInstance k x s.instances := rfl

@[simp] theorem State.setInst_sel (s : State) (k : Nat) (x : Instance) :
    (s.setInst k x).sel = s.sel := rfl

@[simp] theorem State.setInst_input (s : State) (k : Nat) (x : Instance) :
    (s.setInst k x).input = s.input := rfl

@[simp] theorem State.setInst_responses (s : State) (k : Nat) (x : Instance) :
    (s.setInst k x).responses = s.responses := rfl

/-! ### `State.answer` -/

@[simp] theorem State.answer_instances (s : State) (a : Answer) :
    (s.answer a).instances = s.instances := rfl

@[simp] theorem State.answer_sel (s : State) (a : Answer) : (s.answer a).sel = s.sel := rfl

@[simp] theorem State.answer_input (s : State) (a : Answer) : (s.answer a).input = s.input := rfl

@[simp] theorem State.answer_responses (s : State) (a : Answer) :
    (s.answer a).responses = s.responses ++ [a] := rfl

@[simp] theorem State.answer_inst (s : State) (a : Answer) (j : Nat) :
    (s.answer a).inst j = s.inst j := rfl

/-! ### `platformReset` -/

@[simp] theorem platformReset_instances (s : State) : (platformReset s).instances = [] := rfl

@[simp] theorem platformReset_sel (s : State) : (platformReset s).sel = s.sel := rfl

@[simp] theorem platformReset_input (s : State) : (platformReset s).input = s.input := rfl

@[simp] theorem platformReset_responses (s : State) : (platformReset s).responses = s.responses := rfl

@[simp] theorem platformReset_inst (s : State) (k : Nat) :
    (platformReset s).inst k = Instance.reset := rfl

/-! ### `invalidateIv` -/

@[simp] theorem invalidateIv_configured (x : Instance) :
    (invalidateIv x).configured = x.configured := rfl

@[simp] theorem invalidateIv_ivValid (x : Instance) : (invalidateIv x).ivValid = false := rfl

@[simp] theorem invalidateIv_eng (x : Instance) : (invalidateIv x).eng = x.eng := rfl

@[simp] theorem invalidateIv_pad (x : Instance) : (invalidateIv x).pad = x.pad := rfl

@[simp] theorem invalidateIv_pers (x : Instance) : (invalidateIv x).pers = x.pers := rfl

@[simp] theorem invalidateIv_klen (x : Instance) : (invalidateIv x).klen = x.klen := rfl

@[simp] theorem invalidateIv_nk (x : Instance) : (invalidateIv x).nk = x.nk := rfl

@[simp] theorem invalidateIv_nr (x : Instance) : (invalidateIv x).nr = x.nr := rfl

@[simp] theorem invalidateIv_rk (x : Instance) : (invalidateIv x).rk = x.rk := rfl

@[simp] theorem invalidateIv_ivr (x : Instance) : (invalidateIv x).ivr = none := rfl

@[simp] theorem invalidateIv_cb (x : Instance) : (invalidateIv x).cb = none := rfl

@[simp] theorem invalidateIv_off (x : Instance) : (invalidateIv x).off = none := rfl

@[simp] theorem invalidateIv_ks (x : Instance) : (invalidateIv x).ks = none := rfl

@[simp] theorem invalidateIv_cv (x : Instance) : (invalidateIv x).cv = none := rfl

/-! ### Responses -/

@[simp] theorem respondOk_status (out : List Byte) : (respondOk out).status = okStatus := rfl

@[simp] theorem respondOk_out (out : List Byte) : (respondOk out).out = out := rfl

@[simp] theorem respondOk_outLen (out : List Byte) :
    (respondOk out).outLen = BitVec.ofNat 64 out.length := rfl

@[simp] theorem raise_status (e : CommandError) : (raise e).status = errorStatus e := rfl

@[simp] theorem raise_out (e : CommandError) : (raise e).out = [] := rfl

@[simp] theorem raise_outLen (e : CommandError) : (raise e).outLen = 0 := rfl

end Sys2Proof.Machine
end

