-- ==== Sys2Proof/Laws/Table.lean ====
section
/-!
SUPPORT. The table of instances: reading after writing, and the canonical form, which every write
keeps and in which equal contents are equal tables.
-/
namespace Sys2Proof.Machine

@[simp] theorem lookupInstance_nil (k : Nat) : lookupInstance [] k = Instance.reset := rfl

/-- A table whose indices start above `k` lists no instance `k`. -/
theorem lookupInstance_below {low k : Nat} {t : List (Nat × Instance)} (h : tableWf low t = true)
    (hk : k < low) : lookupInstance t k = Instance.reset := by
  induction t generalizing low with
  | nil => rfl
  | cons e t ih =>
    obtain ⟨j, y⟩ := e
    simp only [tableWf, Bool.and_eq_true, decide_eq_true_eq] at h
    rw [lookupInstance, if_neg (by omega)]
    exact ih h.2 (by omega)

theorem tableWf_weaken {low low' : Nat} {t : List (Nat × Instance)} (h : tableWf low t = true)
    (hl : low' ≤ low) : tableWf low' t = true := by
  cases t with
  | nil => rfl
  | cons e t =>
    simp only [tableWf, Bool.and_eq_true, decide_eq_true_eq] at h ⊢
    exact ⟨⟨⟨by omega, h.1.1.2⟩, h.1.2⟩, h.2⟩

/-- Listing an instance in front of a canonical table gives a canonical table. -/
theorem tableWf_listInstance {low k : Nat} {x : Instance} {t : List (Nat × Instance)}
    (ht : tableWf (k + 1) t = true) (hk : low ≤ k) (he : instanceExists k = true) :
    tableWf low (listInstance k x t) = true := by
  unfold listInstance
  split
  · exact tableWf_weaken ht (by omega)
  · rename_i hx
    simp [tableWf, ht, hk, he, hx]

/-- Writing an instance keeps the canonical form. -/
theorem tableWf_storeInstance {low k : Nat} {x : Instance} {t : List (Nat × Instance)}
    (ht : tableWf low t = true) (hk : low ≤ k) (he : instanceExists k = true) :
    tableWf low (storeInstance k x t) = true := by
  induction t generalizing low with
  | nil => exact tableWf_listInstance rfl hk he
  | cons e t ih =>
    obtain ⟨j, y⟩ := e
    simp only [tableWf, Bool.and_eq_true, decide_eq_true_eq] at ht
    unfold storeInstance
    split
    · rename_i hkj
      refine tableWf_listInstance ?_ hk he
      simp [tableWf, ht, show k + 1 ≤ j by omega]
    · split
      · rename_i hkj
        exact tableWf_listInstance (hkj ▸ ht.2) hk he
      · have := ih ht.2 (by omega)
        simp [tableWf, ht, this]

theorem lookupInstance_listInstance_same {k : Nat} {x : Instance} {t : List (Nat × Instance)}
    (ht : tableWf (k + 1) t = true) : lookupInstance (listInstance k x t) k = x := by
  unfold listInstance
  split
  · rename_i hx
    rw [hx, lookupInstance_below ht (by omega)]
  · simp [lookupInstance]

theorem lookupInstance_listInstance_other {k j : Nat} {x : Instance} {t : List (Nat × Instance)}
    (hjk : j ≠ k) : lookupInstance (listInstance k x t) j = lookupInstance t j := by
  unfold listInstance
  split
  · rfl
  · rw [lookupInstance, if_neg (Ne.symm hjk)]

/-- Reading the instance just written gives what was written. -/
theorem lookupInstance_storeInstance_same {low k : Nat} {x : Instance} {t : List (Nat × Instance)}
    (ht : tableWf low t = true) : lookupInstance (storeInstance k x t) k = x := by
  induction t generalizing low with
  | nil => exact lookupInstance_listInstance_same rfl
  | cons e t ih =>
    obtain ⟨j, y⟩ := e
    simp only [tableWf, Bool.and_eq_true, decide_eq_true_eq] at ht
    unfold storeInstance
    split
    · refine lookupInstance_listInstance_same ?_
      simp [tableWf, ht, show k + 1 ≤ j by omega]
    · split
      · rename_i hkj
        exact lookupInstance_listInstance_same (hkj ▸ ht.2)
      · rename_i hkj
        rw [lookupInstance, if_neg (Ne.symm hkj)]
        exact ih ht.2

/-- Writing one instance leaves every other as it was. -/
theorem lookupInstance_storeInstance_other {k j : Nat} {x : Instance} {t : List (Nat × Instance)}
    (hjk : j ≠ k) : lookupInstance (storeInstance k x t) j = lookupInstance t j := by
  induction t with
  | nil => exact lookupInstance_listInstance_other hjk
  | cons e t ih =>
    obtain ⟨i, y⟩ := e
    unfold storeInstance
    split
    · exact lookupInstance_listInstance_other hjk
    · split
      · rename_i hki
        rw [lookupInstance_listInstance_other hjk, lookupInstance, if_neg (by omega)]
      · simp only [lookupInstance, ih]

/-- Canonical tables with equal contents are equal. -/
theorem table_ext {low : Nat} {t u : List (Nat × Instance)} (ht : tableWf low t = true)
    (hu : tableWf low u = true) (h : ∀ k, lookupInstance t k = lookupInstance u k) : t = u := by
  induction t generalizing low u with
  | nil =>
    cases u with
    | nil => rfl
    | cons e u =>
      have hj := h e.1
      simp only [tableWf, Bool.and_eq_true, decide_eq_true_eq] at hu
      exact absurd (by simpa [lookupInstance] using hj.symm) hu.1.2
  | cons d t ih =>
    obtain ⟨i, x⟩ := d
    cases u with
    | nil =>
      have hi := h i
      simp only [tableWf, Bool.and_eq_true, decide_eq_true_eq] at ht
      exact absurd (by simpa [lookupInstance] using hi) ht.1.2
    | cons e u =>
      obtain ⟨j, y⟩ := e
      simp only [tableWf, Bool.and_eq_true, decide_eq_true_eq] at ht hu
      have hij : i = j := by
        rcases Nat.lt_trichotomy i j with hlt | heq | hgt
        · have := h i
          rw [lookupInstance, if_pos rfl, lookupInstance, if_neg (by omega),
            lookupInstance_below hu.2 (by omega)] at this
          exact absurd this ht.1.2
        · exact heq
        · have := h j
          rw [lookupInstance, if_neg (by omega), lookupInstance_below ht.2 (by omega),
            lookupInstance, if_pos rfl] at this
          exact absurd this.symm hu.1.2
      subst hij
      have hxy : x = y := by simpa [lookupInstance] using h i
      subst hxy
      refine congrArg _ (ih ht.2 hu.2 fun k => ?_)
      by_cases hk : i = k
      · subst hk
        rw [lookupInstance_below ht.2 (by omega), lookupInstance_below hu.2 (by omega)]
      · simpa [lookupInstance, hk] using h k

/-! ### The same, read through the state -/

/-- The selected instance after a write to it. -/
theorem State.setInst_inst_same {s : State} {k : Nat} {x : Instance}
    (h : tableWf 0 s.instances = true) : (s.setInst k x).inst k = x :=
  lookupInstance_storeInstance_same h

/-- Another instance after a write. -/
theorem State.setInst_inst_other {s : State} {k j : Nat} {x : Instance} (hjk : j ≠ k) :
    (s.setInst k x).inst j = s.inst j :=
  lookupInstance_storeInstance_other hjk

end Sys2Proof.Machine
end

