-- ==== Sys2Proof/Laws/Ops.lean ====
section
/-!
SUPPORT. What the shared operations can do, said once: reading a register, performing a command on the
selected instance, and the operations of SET_IV and CONSTRUCT.
-/
namespace Sys2Proof.Machine

/-! ### `need` and `encryptBlock` -/

@[simp] theorem need_some {α : Type} (r : Reg) (v : α) : need r (some v) = .ok v := rfl

@[simp] theorem need_none {α : Type} (r : Reg) : need r (none : Option α) = .error (.noValue r) := rfl

/-- A read that answers a value read it from a register that holds it. -/
theorem need_eq_ok {α : Type} {r : Reg} {o : Option α} {v : α} : need r o = .ok v ↔ o = some v := by
  cases o <;> simp [need]

/-- A read that faults found no value. -/
theorem need_eq_error {α : Type} {r : Reg} {o : Option α} {f : Fault} :
    need r o = .error f ↔ o = none ∧ f = .noValue r := by
  cases o <;> simp [need, eq_comm]

theorem encryptBlock_ok {x : Instance} {rk : List Word} {nr : BitVec 4} (hrk : x.rk = some rk)
    (hnr : x.nr = some nr) (b : Block) : encryptBlock x b = .ok (aesEncrypt rk nr.toNat b) := by
  simp [encryptBlock, hrk, hnr]

/-! ### `State.after` -/

@[simp] theorem State.after_sel (s : State) (r : Response) (x : Instance) :
    (s.after r x).sel = s.sel := rfl

@[simp] theorem State.after_input (s : State) (r : Response) (x : Instance) :
    (s.after r x).input = s.input := rfl

@[simp] theorem State.after_responses (s : State) (r : Response) (x : Instance) :
    (s.after r x).responses = s.responses ++ [⟨s.sel, r⟩] := rfl

@[simp] theorem State.after_instances (s : State) (r : Response) (x : Instance) :
    (s.after r x).instances = storeInstance s.sel x s.instances := rfl

theorem State.after_inst_other {s : State} {r : Response} {x : Instance} {k : Nat} (h : k ≠ s.sel) :
    (s.after r x).inst k = s.inst k :=
  State.setInst_inst_other h

theorem State.after_inst_same {s : State} {r : Response} {x : Instance}
    (h : tableWf 0 s.instances = true) : (s.after r x).inst s.sel = x :=
  State.setInst_inst_same h

/-- The table after a command is in canonical form again. -/
theorem State.after_tableWf {s : State} {r : Response} {x : Instance}
    (h : tableWf 0 s.instances = true) (he : instanceExists s.sel = true) :
    tableWf 0 (s.after r x).instances = true :=
  tableWf_storeInstance h (Nat.zero_le _) he

/-! ### `perform` -/

/-- What `perform` does where the command answers. -/
theorem perform_ok {s : State} {f : Instance → Except Fault (Response × Instance)} {r : Response}
    {x : Instance} (he : instanceExists s.sel = true) (h : f (s.inst s.sel) = .ok (r, x)) :
    perform s f = .next (s.after r x) := by
  simp [perform, he, h, State.after]

/-- `perform` answers a next state exactly where the instance exists and the command answers, and the
next state is then the one after it. -/
theorem perform_eq_next {s t : State} {f : Instance → Except Fault (Response × Instance)} :
    perform s f = .next t ↔
      instanceExists s.sel = true ∧ ∃ r x, f (s.inst s.sel) = .ok (r, x) ∧ t = s.after r x := by
  unfold perform
  split
  · rename_i he
    cases h : f (s.inst s.sel) with
    | error e => simp
    | ok p =>
      obtain ⟨r, x⟩ := p
      simp [he, State.after, eq_comm]
  · rename_i he
    simp [he]

/-- `perform` faults exactly where the instance exists and the command faults. -/
theorem perform_eq_fault {s : State} {f : Instance → Except Fault (Response × Instance)}
    {e : Fault} :
    perform s f = .fault e ↔ instanceExists s.sel = true ∧ f (s.inst s.sel) = .error e := by
  unfold perform
  split
  · rename_i he
    cases h : f (s.inst s.sel) <;> simp [he]
  · rename_i he
    simp [he]

/-- `perform` refuses exactly a command to an instance the block does not have. -/
theorem perform_eq_refused {s : State} {f : Instance → Except Fault (Response × Instance)}
    {r : Refusal} :
    perform s f = .refused r ↔ instanceExists s.sel = false ∧ r = .noSuchInstance s.sel := by
  unfold perform
  split
  · rename_i he
    cases h : f (s.inst s.sel) <;> simp [he]
  · rename_i he
    simp [he, eq_comm]

/-! ### `setIvCore` -/

theorem setIvCore_ctr {iv : List Byte} {x : Instance} (h : x.eng = some .ctr) :
    setIvCore iv x =
      .ok { x with ivr := some (pad16 iv), cb := some (pad16 iv), off := some 0, ivValid := true } := by
  simp [setIvCore, h]

theorem setIvCore_cbc {iv : List Byte} {x : Instance} (h : x.eng = some .cbc) :
    setIvCore iv x = .ok { x with ivr := some (pad16 iv), cv := some (pad16 iv), ivValid := true } := by
  simp [setIvCore, h]

/-! ### The checks of CONSTRUCT and SET_IV -/

/-- The IV checks pass exactly on 1 to 16 bytes. -/
theorem ivCheck_eq_none {n : Nat} : ivCheck n = none ↔ 1 ≤ n ∧ n ≤ 16 := by
  unfold ivCheck
  split
  · simp; omega
  · split <;> simp <;> omega

theorem keyLengthLegal_iff {n : Nat} : keyLengthLegal n = true ↔ n = 16 ∨ n = 24 ∨ n = 32 := by
  simp [keyLengthLegal, or_assoc]

/-- The checks of CONSTRUCT pass exactly on the legal operands. -/
theorem constructCheck_eq_none {eng : Engine} {pad : Padding} {pers : Persistence} {k v : Nat} :
    constructCheck eng pad pers k v = none ↔
      keyLengthLegal k = true ∧ legalConfiguration eng pad pers = true ∧ 1 ≤ v ∧ v ≤ 16 := by
  rw [← ivCheck_eq_none]
  cases h : keyLengthLegal k <;> cases eng <;> cases pad <;> cases pers <;>
    simp [constructCheck, legalConfiguration, h]

end Sys2Proof.Machine
end

