-- ==== Sys2Proof/Laws/Commands.lean ====
section
/-!
SUPPORT. Each command as `perform` of a function on one instance, and what that function can do.
-/
namespace Sys2Proof.Machine

/-- What a command does to the registers of the instance it is issued to. -/
def commandOn : Instr → Instance → Except Fault (Response × Instance)
  | .construct eng pad pers key iv, _ => constructOn eng pad pers key iv
  | .setIv iv, x => setIvOn iv x
  | .crypt cap data, x => cryptOn cap data x

/-- A command is performed on the selected instance alone. -/
theorem exec_eq_perform (i : Instr) (s : State) : exec i s = perform s (commandOn i) := by
  cases i <;> rfl

/-- A command answers a next state exactly where its function on the selected instance answers. -/
theorem exec_eq_next {i : Instr} {s t : State} :
    exec i s = .next t ↔ instanceExists s.sel = true ∧
      ∃ r x, commandOn i (s.inst s.sel) = .ok (r, x) ∧ t = s.after r x := by
  rw [exec_eq_perform]
  exact perform_eq_next

theorem exec_of_commandOn {i : Instr} {s : State} {r : Response} {x : Instance}
    (he : instanceExists s.sel = true) (h : commandOn i (s.inst s.sel) = .ok (r, x)) :
    exec i s = .next (s.after r x) := by
  rw [exec_eq_perform]
  exact perform_ok he h

/-- The registers a successful CONSTRUCT leaves. -/
def constructed (eng : Engine) (pad : Padding) (pers : Persistence) (key iv : List Byte) : Instance :=
  match eng with
  | .ctr => { configure .ctr pad pers key with
      ivr := some (pad16 iv), cb := some (pad16 iv), off := some 0, ivValid := true }
  | .cbc => { configure .cbc pad pers key with
      ivr := some (pad16 iv), cv := some (pad16 iv), ivValid := true }

theorem setIvCore_configure (eng : Engine) (pad : Padding) (pers : Persistence)
    (key iv : List Byte) :
    setIvCore iv (configure eng pad pers key) = .ok (constructed eng pad pers key iv) := by
  cases eng <;> rfl

/-- CONSTRUCT fails on the first check, or leaves the registers `constructed`. It never faults. -/
theorem constructOn_cases (eng : Engine) (pad : Padding) (pers : Persistence) (key iv : List Byte) :
    (∃ e, constructCheck eng pad pers key.length iv.length = some e ∧
      constructOn eng pad pers key iv = .ok (raise e, Instance.reset)) ∨
    (constructCheck eng pad pers key.length iv.length = none ∧
      constructOn eng pad pers key iv = .ok (respondOk [], constructed eng pad pers key iv)) := by
  unfold constructOn
  cases h : constructCheck eng pad pers key.length iv.length with
  | some e => exact .inl ⟨e, rfl, rfl⟩
  | none => exact .inr ⟨rfl, by simp [setIvCore_configure]⟩

/-- What SET_IV can do: not constructed, a bad IV, or a loaded IV. -/
theorem setIvOn_cases {iv : List Byte} {x y : Instance} {r : Response}
    (h : setIvOn iv x = .ok (r, y)) :
    (x.configured = false ∧ r = raise .notConstructed ∧ y = x) ∨
    (x.configured = true ∧ ∃ e, ivCheck iv.length = some e ∧ r = raise e ∧ y = invalidateIv x) ∨
    (x.configured = true ∧ ivCheck iv.length = none ∧ r = respondOk [] ∧
      setIvCore iv x = .ok y) := by
  unfold setIvOn at h
  split at h
  · rename_i hc
    split at h
    · rename_i e he
      cases h
      exact .inr (.inl ⟨hc, e, he, rfl, rfl⟩)
    · rename_i he
      split at h
      · cases h
      · rename_i z hz
        cases h
        exact .inr (.inr ⟨hc, he, rfl, hz⟩)
  · rename_i hc
    cases h
    exact .inl ⟨by simpa using hc, rfl, rfl⟩

/-- What CRYPT can do: a precondition that fails, or the engine of the instance. -/
theorem cryptOn_cases {cap : BitVec 64} {data : List Byte} {x y : Instance} {r : Response}
    (h : cryptOn cap data x = .ok (r, y)) :
    (x.configured = false ∧ r = raise .notConstructed ∧ y = x) ∨
    (x.configured = true ∧ x.ivValid = false ∧ r = raise .ivNotValid ∧ y = x) ∨
    (x.configured = true ∧ x.ivValid = true ∧ x.eng = some .ctr ∧ cryptCtr cap data x = .ok (r, y)) ∨
    (x.configured = true ∧ x.ivValid = true ∧ x.eng = some .cbc ∧ cryptCbc cap data x = .ok (r, y)) := by
  unfold cryptOn at h
  split at h
  · rename_i hc
    split at h
    · rename_i hv
      split at h
      · cases h
      · rename_i he
        exact .inr (.inr (.inl ⟨hc, hv, need_eq_ok.mp he, h⟩))
      · rename_i he
        exact .inr (.inr (.inr ⟨hc, hv, need_eq_ok.mp he, h⟩))
    · rename_i hv
      cases h
      exact .inr (.inl ⟨hc, by simpa using hv, rfl, rfl⟩)
  · rename_i hc
    cases h
    exact .inl ⟨by simpa using hc, rfl, rfl⟩

end Sys2Proof.Machine
end

