-- ==== Sys2Proof/Laws/Cbc.lean ====
section
/-!
SUPPORT. The CBC engine: where a call chains from, one block, the complete-block region, and the
branches of the padding policies.
-/
namespace Sys2Proof.Machine

/-! ### The chain -/

@[simp] theorem standardCbc_length (rk : List Word) (nr : BitVec 4) (prev : Block)
    (ps : List Block) : (standardCbc rk nr prev ps).length = ps.length := by
  induction ps generalizing prev with
  | nil => rfl
  | cons p ps ih => simp [standardCbc, ih]

/-- Chaining over two runs of blocks. -/
theorem standardCbc_append (rk : List Word) (nr : BitVec 4) (prev : Block) (ps qs : List Block) :
    standardCbc rk nr prev (ps ++ qs) = standardCbc rk nr prev ps ++
      standardCbc rk nr ((standardCbc rk nr prev ps).getLast?.getD prev) qs := by
  induction ps generalizing prev with
  | nil => simp [standardCbc]
  | cons p ps ih =>
    simp only [List.cons_append, standardCbc, ih]
    cases ps <;> simp [standardCbc, List.getLast?_cons]

/-- One block of the chain. -/
theorem cbcBlock_ok {x : Instance} {rk : List Word} {nr : BitVec 4} {cv : Block}
    (hrk : x.rk = some rk) (hnr : x.nr = some nr) (hcv : x.cv = some cv) (p : Block) :
    cbcBlock x p = .ok (aesEncrypt rk nr.toNat (p ^^^ cv),
      { x with cv := some (aesEncrypt rk nr.toNat (p ^^^ cv)) }) := by
  simp [cbcBlock, hcv, encryptBlock_ok hrk hnr]

/-- The block step changes no register but `CV`. -/
theorem cbcBlock_frame {x y : Instance} {p c : Block} (h : cbcBlock x p = .ok (c, y)) :
    y = { x with cv := some c } := by
  unfold cbcBlock at h
  split at h
  · cases h
  · split at h
    · cases h
    · simp only [withValue_eq] at h
      cases h
      rfl

/-- The complete-block region is standard CBC from `CV`, and `CV` ends at its last block. -/
theorem cbcRegion_ok {x : Instance} {rk : List Word} {nr : BitVec 4} {cv : Block}
    (hrk : x.rk = some rk) (hnr : x.nr = some nr) (hcv : x.cv = some cv) (ps : List Block) :
    cbcRegion x ps = .ok (standardCbc rk nr cv ps,
      { x with cv := some ((standardCbc rk nr cv ps).getLast?.getD cv) }) := by
  induction ps generalizing x cv with
  | nil =>
    cases x
    simp_all [cbcRegion, standardCbc]
  | cons p ps ih =>
    simp only [cbcRegion, cbcBlock_ok hrk hnr hcv]
    rw [ih (x := { x with cv := some (aesEncrypt rk nr.toNat (p ^^^ cv)) })
      (cv := aesEncrypt rk nr.toNat (p ^^^ cv)) hrk hnr rfl]
    cases ps <;> simp [standardCbc, List.getLast?_cons]

/-- The complete-block region changes no register but `CV`, and gives one block for each. -/
theorem cbcRegion_frame {x y : Instance} {ps cs : List Block} (h : cbcRegion x ps = .ok (cs, y)) :
    (∃ cv, y = { x with cv := cv }) ∧ cs.length = ps.length := by
  induction ps generalizing x cs with
  | nil => cases h; exact ⟨⟨_, rfl⟩, rfl⟩
  | cons p ps ih =>
    simp only [cbcRegion] at h
    split at h
    · cases h
    · rename_i c z hz
      split at h
      · cases h
      · rename_i cs' w hw
        cases h
        have hf := cbcBlock_frame hz
        obtain ⟨⟨cv, hcv⟩, hl⟩ := ih hw
        exact ⟨⟨cv, by rw [hcv, hf]⟩, by simp [hl]⟩

/-! ### Where a call starts -/

/-- The start of a call on a ready instance. -/
theorem startChain_ok {x : Instance} {pad : Padding} {rk : List Word} {nr : BitVec 4} {start : Block}
    (h : x.CbcReady pad rk nr start) : startChain x = .ok { x with cv := some start } := by
  obtain ⟨_, _, _, _, _, _, ⟨hp, hv⟩ | ⟨hp, hv⟩⟩ := h
  · simp [startChain, hp, hv]
  · cases x
    simp_all [startChain]

theorem startChain_frame {x y : Instance} (h : startChain x = .ok y) : ∃ cv, y = { x with cv := cv } := by
  unfold startChain at h
  split at h
  · cases h
  · cases h; exact ⟨_, rfl⟩
  · split at h
    · cases h
    · cases h; exact ⟨_, rfl⟩

/-! ### The lengths of a call -/

theorem completeBytes_eq (n : Nat) : completeBytes n = 16 * (n / 16) := by
  simp [completeBytes, residual]
  omega

/-! ### The padding policies -/

/-- What follows the region changes no register but `CV` and always answers `OK`. -/
theorem finishCbc_frame {pad : Padding} {region tail : List Byte} {x y : Instance} {r : Response}
    (h : finishCbc pad region tail x = .ok (r, y)) :
    (∃ cv, y = { x with cv := cv }) ∧ ∃ out, r = respondOk out := by
  unfold finishCbc at h
  split at h
  · cases h; exact ⟨⟨_, rfl⟩, _, rfl⟩
  · cases pad with
    | none => cases h; exact ⟨⟨_, rfl⟩, _, rfl⟩
    | pkcs5 =>
      simp only [padBlock] at h
      split at h
      · cases h
      · rename_i e z hz
        cases h
        exact ⟨⟨_, cbcBlock_frame hz⟩, _, rfl⟩
    | cipherTextStealing =>
      simp only [steal] at h
      split at h
      · cases h
      · rename_i e z hz
        cases h
        exact ⟨⟨_, cbcBlock_frame hz⟩, _, rfl⟩

/-- CRYPT on a ready CBC instance, below the capacity or above it. -/
theorem cryptOn_cbcReady {x : Instance} {pad : Padding} {rk : List Word} {nr : BitVec 4}
    {start : Block} (h : x.CbcReady pad rk nr start) (cap : BitVec 64) (data : List Byte) :
    cryptOn cap data x =
      if cap.toNat < requiredLength pad data.length then .ok (raise .capacity, x)
      else cbcMessage pad data { x with cv := some start } := by
  have hs := startChain_ok h
  obtain ⟨h1, h2, h3, h4, _⟩ := h
  have h0 : cryptOn cap data x = cryptCbc cap data x := by simp [cryptOn, h1, h2, h3]
  have h5 := need_some Reg.pad pad
  rw [← h4] at h5
  rw [h0, cryptCbc, h5]
  simp only
  rw [hs]

/-- CRYPT on a CBC instance changes no register but `CV`. -/
theorem cryptCbc_frame {cap : BitVec 64} {data : List Byte} {x y : Instance} {r : Response}
    (h : cryptCbc cap data x = .ok (r, y)) :
    (∃ cv, y = { x with cv := cv }) ∧ (r = raise .capacity ∨ ∃ out, r = respondOk out) := by
  unfold cryptCbc at h
  split at h
  · cases h
  · split at h
    · cases h; exact ⟨⟨_, rfl⟩, .inl rfl⟩
    · split at h
      · cases h
      · rename_i z hz
        obtain ⟨cv, rfl⟩ := startChain_frame hz
        unfold cbcMessage at h
        split at h
        · cases h; exact ⟨⟨cv, rfl⟩, .inr ⟨_, rfl⟩⟩
        · split at h
          · cases h
          · rename_i cs w hw
            obtain ⟨⟨cv', rfl⟩, _⟩ := cbcRegion_frame hw
            obtain ⟨⟨cv'', rfl⟩, hr⟩ := finishCbc_frame h
            exact ⟨⟨cv'', rfl⟩, .inr hr⟩

end Sys2Proof.Machine
end

