-- ==== Sys2Proof/Laws/Ctr.lean ====
section
/-!
SUPPORT. The CTR engine: the counter block after increments, one byte, and a stream of bytes.
-/
namespace Sys2Proof.Machine

/-! ### Counter blocks -/

@[simp] theorem nonceOf_append (n c : BitVec 64) : nonceOf (n ++ c) = n := by
  rw [nonceOf, BitVec.extractLsb'_append_eq_of_le (by omega)]
  exact BitVec.extractLsb'_eq_self

@[simp] theorem counterOf_append (n c : BitVec 64) : counterOf (n ++ c) = c := by
  rw [counterOf, BitVec.extractLsb'_append_eq_of_add_le (by omega)]
  exact BitVec.extractLsb'_eq_self

@[simp] theorem nonceOf_append_counterOf (cb : Block) : (nonceOf cb ++ counterOf cb : Block) = cb := by
  rw [nonceOf, counterOf, BitVec.extractLsb'_append_extractLsb'_eq_extractLsb' (by omega)]
  exact BitVec.extractLsb'_eq_self

@[simp] theorem nonceOf_inc64 (cb : Block) : nonceOf (inc64 cb) = nonceOf cb := by simp [inc64]

@[simp] theorem counterOf_inc64 (cb : Block) : counterOf (inc64 cb) = counterOf cb + 1 := by
  simp [inc64]

@[simp] theorem counterBlockAfter_zero (cb : Block) : counterBlockAfter cb 0 = cb := by
  simp [counterBlockAfter]

/-- One increment, then `n` more. -/
theorem counterBlockAfter_inc64 (cb : Block) (n : Nat) :
    counterBlockAfter (inc64 cb) n = counterBlockAfter cb (n + 1) := by
  simp only [counterBlockAfter, nonceOf_inc64, counterOf_inc64]
  congr 1
  rw [BitVec.add_assoc]
  congr 1
  apply BitVec.eq_of_toNat_eq
  simp [Nat.add_comm]

@[simp] theorem previousCounterBlock_inc64 (cb : Block) : previousCounterBlock (inc64 cb) = cb := by
  simp [previousCounterBlock]

/-! ### One byte -/

/-- In the middle of a block a byte reads `KS` and advances `OFF`. -/
theorem ctrByte_mid {x : Instance} {off : BitVec 4} {ks : Block} (hoff : x.off = some off)
    (h0 : off ≠ 0) (hks : x.ks = some ks) (p : Byte) :
    ctrByte x p = .ok (p ^^^ blockByte ks off.toNat, { x with off := some (off + 1) }) := by
  unfold ctrByte
  rw [hoff, need_some]
  simp only
  rw [if_neg h0, xorByte, hks, need_some]

/-- At the start of a block a byte computes a new `KS` and increments the counter. -/
theorem ctrByte_start {x : Instance} {rk : List Word} {nr : BitVec 4} {cb : Block}
    (hoff : x.off = some 0) (hrk : x.rk = some rk) (hnr : x.nr = some nr) (hcb : x.cb = some cb)
    (p : Byte) :
    ctrByte x p = .ok (p ^^^ blockByte (aesEncrypt rk nr.toNat cb) 0,
      { x with ks := some (aesEncrypt rk nr.toNat cb), cb := some (inc64 cb), off := some 1 }) := by
  simp [ctrByte, refill, xorByte, hoff, hcb, encryptBlock_ok hrk hnr]

/-- What `CtrByte` can do. -/
theorem ctrByte_cases {x y : Instance} {p c : Byte} (h : ctrByte x p = .ok (c, y)) :
    (∃ off ks, x.off = some off ∧ off ≠ 0 ∧ x.ks = some ks ∧ c = p ^^^ blockByte ks off.toNat ∧
      y = { x with off := some (off + 1) }) ∨
    (∃ rk nr cb, x.off = some 0 ∧ x.rk = some rk ∧ x.nr = some nr ∧ x.cb = some cb ∧
      c = p ^^^ blockByte (aesEncrypt rk nr.toNat cb) 0 ∧
      y = { x with ks := some (aesEncrypt rk nr.toNat cb), cb := some (inc64 cb), off := some 1 }) := by
  cases hoff : x.off with
  | none => simp [ctrByte, hoff] at h
  | some off =>
    by_cases h0 : off = 0
    · subst h0
      cases hcb : x.cb with
      | none => simp [ctrByte, refill, hoff, hcb] at h
      | some cb =>
        cases hrk : x.rk with
        | none => simp [ctrByte, refill, encryptBlock, hoff, hcb, hrk] at h
        | some rk =>
          cases hnr : x.nr with
          | none => simp [ctrByte, refill, encryptBlock, hoff, hcb, hrk, hnr] at h
          | some nr =>
            rw [ctrByte_start hoff hrk hnr hcb] at h
            cases h
            exact .inr ⟨rk, nr, cb, rfl, rfl, rfl, rfl, rfl, by simp [hrk, hnr]⟩
    · cases hks : x.ks with
      | none =>
        unfold ctrByte at h
        rw [hoff, need_some] at h
        simp only at h
        rw [if_neg h0, xorByte, hks, need_none] at h
        cases h
      | some ks =>
        rw [ctrByte_mid hoff h0 hks] at h
        cases h
        exact .inl ⟨off, ks, rfl, h0, rfl, rfl, by simp [hks]⟩

/-- `CtrByte` writes no register but `CB`, `OFF` and `KS`, and never the nonce. -/
theorem ctrByte_frame {x y : Instance} {p c : Byte} (h : ctrByte x p = .ok (c, y)) :
    ∃ cb off ks, y = { x with cb := cb, off := off, ks := ks } ∧
      cb.map nonceOf = x.cb.map nonceOf := by
  rcases ctrByte_cases h with ⟨_, _, _, _, _, _, rfl⟩ | ⟨_, _, _, _, _, _, hcb, _, rfl⟩
  · exact ⟨_, _, _, rfl, rfl⟩
  · exact ⟨_, _, _, rfl, by simp [hcb]⟩

/-! ### A stream of bytes -/

@[simp] theorem ctrStream_nil (x : Instance) : ctrStream x [] = .ok ([], x) := rfl

/-- The step of a stream, inverted. -/
theorem ctrStream_cons_ok {x z : Instance} {p : Byte} {rest out : List Byte} :
    ctrStream x (p :: rest) = .ok (out, z) ↔
      ∃ c y cs, ctrByte x p = .ok (c, y) ∧ ctrStream y rest = .ok (cs, z) ∧ out = c :: cs := by
  constructor
  · intro h
    rw [ctrStream] at h
    split at h
    · cases h
    · rename_i c y hb
      split at h
      · cases h
      · rename_i cs w hr
        cases h
        exact ⟨c, y, cs, hb, hr, rfl⟩
  · rintro ⟨c, y, cs, hb, hr, rfl⟩
    simp [ctrStream, hb, hr]

/-- The output is as long as the input. -/
theorem ctrStream_length {x y : Instance} {data out : List Byte}
    (h : ctrStream x data = .ok (out, y)) : out.length = data.length := by
  induction data generalizing x out with
  | nil => cases h; rfl
  | cons p rest ih =>
    obtain ⟨c, z, cs, _, h2, rfl⟩ := ctrStream_cons_ok.mp h
    simp [ih h2]

/-- A stream writes no register but `CB`, `OFF` and `KS`, and never the nonce. -/
theorem ctrStream_frame {x y : Instance} {data out : List Byte}
    (h : ctrStream x data = .ok (out, y)) :
    ∃ cb off ks, y = { x with cb := cb, off := off, ks := ks } ∧
      cb.map nonceOf = x.cb.map nonceOf := by
  induction data generalizing x out with
  | nil => cases h; exact ⟨_, _, _, rfl, rfl⟩
  | cons p rest ih =>
    obtain ⟨c, z, cs, hb, hr, _⟩ := ctrStream_cons_ok.mp h
    obtain ⟨_, _, _, rfl, h1⟩ := ctrByte_frame hb
    obtain ⟨_, _, _, rfl, h2⟩ := ih hr
    exact ⟨_, _, _, rfl, h2.trans h1⟩

/-- CRYPT on a ready CTR instance, below the capacity or above it. -/
theorem cryptOn_ctrReady {x : Instance} {rk : List Word} {nr : BitVec 4} {cb : Block} {off : BitVec 4}
    (h : x.CtrReady rk nr cb off) (cap : BitVec 64) (data : List Byte) :
    cryptOn cap data x = cryptCtr cap data x := by
  obtain ⟨h1, h2, h3, _⟩ := h
  simp [cryptOn, h1, h2, h3]

/-- A stream cut in two. -/
theorem ctrStream_append_ok {x y z : Instance} {a b out1 out2 : List Byte}
    (h1 : ctrStream x a = .ok (out1, y)) (h2 : ctrStream y b = .ok (out2, z)) :
    ctrStream x (a ++ b) = .ok (out1 ++ out2, z) := by
  induction a generalizing x out1 with
  | nil => cases h1; simpa using h2
  | cons p rest ih =>
    obtain ⟨c, w, cs, hb, hr, rfl⟩ := ctrStream_cons_ok.mp h1
    rw [List.cons_append, ctrStream_cons_ok]
    exact ⟨c, w, cs ++ out2, hb, ih hr, rfl⟩

end Sys2Proof.Machine
end

