-- ==== Sys2Proof/Laws/Invariants.lean ====
section
/-!
SUPPORT. Instances that meet the invariants: the reset state, the registers a successful CONSTRUCT
leaves, and a state of the block that lists one instance.
-/
namespace Sys2Proof.Machine

theorem Instance.reset_inv : Instance.reset.Inv :=
  ⟨fun _ => rfl, by simp [Instance.reset], fun _ => ⟨rfl, rfl, rfl, rfl, rfl⟩, by simp [Instance.reset]⟩

theorem constructed_holdsConfiguration {eng : Engine} {pad : Padding} {pers : Persistence}
    {key iv : List Byte} (hk : keyLengthLegal key.length = true)
    (hl : legalConfiguration eng pad pers = true) :
    (constructed eng pad pers key iv).HoldsConfiguration := by
  cases eng <;> exact ⟨⟨_, _, _, rfl, rfl, rfl, hl⟩, key, hk, rfl, rfl, rfl, rfl⟩

/-- What a successful CONSTRUCT leaves meets the invariants. -/
theorem constructed_inv {eng : Engine} {pad : Padding} {pers : Persistence} {key iv : List Byte}
    (hk : keyLengthLegal key.length = true) (hl : legalConfiguration eng pad pers = true) :
    (constructed eng pad pers key iv).Inv := by
  refine ⟨?_, fun _ => constructed_holdsConfiguration hk hl, ?_, fun _ => ?_⟩
  · cases eng <;> intro h <;> cases h
  · cases eng <;> intro h <;> cases h
  · cases eng with
    | ctr =>
      exact ⟨rfl, ⟨_, rfl⟩, fun _ => ⟨rfl, _, _, rfl, rfl, fun h => absurd rfl h⟩, fun h => nomatch h⟩
    | cbc => exact ⟨rfl, ⟨_, rfl⟩, fun h => (nomatch h), fun _ => ⟨rfl, rfl, rfl, _, rfl⟩⟩

/-- The block with the registers `x` in instance 0 and every other instance in the reset state. -/
def State.single (x : Instance) : State := { State.reset with instances := [(0, x)] }

@[simp] theorem State.single_inst (x : Instance) : (State.single x).inst 0 = x := rfl

@[simp] theorem State.single_sel (x : Instance) : (State.single x).sel = 0 := rfl

theorem State.single_inv {x : Instance} (h : x.Inv) (hc : x.configured = true) :
    (State.single x).Inv := by
  have hx : x ≠ Instance.reset := by
    rintro rfl
    cases hc
  refine ⟨by simp [State.single, tableWf, instanceExists, hx], fun k => ?_⟩
  by_cases hk : 0 = k
  · subst hk
    exact h
  · have : (State.single x).inst k = Instance.reset := by
      simp [State.inst, State.single, lookupInstance, hk]
    rw [this]
    exact Instance.reset_inv

end Sys2Proof.Machine
end

