-- ==== Sys2Proof/Laws/PerInstr.lean ====
section
/-!
SUPPORT. One fact for each command as syntax: its command word carries its opcode in `CW[3:0]`
(30_encoding.md R71) and only zeros in `CW[31:20]`, which is reserved in every format (30_encoding.md R84).
-/
namespace Sys2Proof.Laws.OpcodeOfEncoding

/-- `OP` of a command (30_encoding.md R71). -/
def opcode : Instr → BitVec 4
  | .construct _ _ _ _ _ => 1
  | .setIv _ => 2
  | .crypt _ _ => 3

/-- The command word has the command's opcode, and zeros in `CW[31:20]`. -/
def Statement (i : Instr) : Prop :=
  cwOp (commandWord i) = opcode i ∧ cwHigh (commandWord i) = 0

theorem construct (eng : Engine) (pad : Padding) (pers : Persistence) (key iv : List Byte) :
    Statement (.construct eng pad pers key iv) := by
  constructor
  · rw [cwOp, commandWord, BitVec.extractLsb'_append_eq_of_add_le (by omega)]
    rfl
  · simp only [cwHigh, commandWord]
    simp (disch := omega) only [BitVec.extractLsb'_append_eq_of_le]
    rfl

theorem setIv (iv : List Byte) : Statement (.setIv iv) := by
  constructor
  · rw [cwOp, commandWord, BitVec.extractLsb'_append_eq_of_add_le (by omega)]
    rfl
  · simp only [cwHigh, commandWord]
    simp (disch := omega) only [BitVec.extractLsb'_append_eq_of_le]
    rfl

theorem crypt (cap : BitVec 64) (data : List Byte) : Statement (.crypt cap data) := by
  constructor <;> simp only [commandWord, opcode] <;> decide

end Sys2Proof.Laws.OpcodeOfEncoding
end

