-- ==== Sys2Proof/Tests/Slice0.lean ====
section
/-!
SUPPORT. The model's own tests. Expected results are those of 95_test_vectors.md and 30_encoding.md.
The theorems `witness_<Name>` show that the hypotheses of `Obligations.<Name>` can be met together.
-/
namespace Sys2Proof.Tests

open Machine

/-! ### Helpers -/

/-- `n` bytes of value `b`. -/
def bytes (n : Nat) (b : Byte) : List Byte := List.replicate n b

/-- `seq(n)` of 95_test_vectors.md §0. -/
def seq (n : Nat) : List Byte := (List.range n).map (BitVec.ofNat 8)

/-- `K128`, `IVC` and `IVB` of 95_test_vectors.md §0. -/
def k128 : List Byte := blockBytes 0x2b7e151628aed2a6abf7158809cf4f3c
def ivc : List Byte := blockBytes 0xf0f1f2f3f4f5f6f7f8f9fafbfcfdfeff
def ivb : List Byte := seq 16

/-- The state of a result; the reset state where there is none. -/
def stateOf : Result → State
  | .next s => s
  | .fault _ => State.reset
  | .refused _ => State.reset

/-- The block with one constructed instance. -/
def made (eng : Engine) (pad : Padding) (pers : Persistence) : State :=
  State.single (constructed eng pad pers (bytes 16 0) (bytes 16 0))

theorem made_inv (eng : Engine) (pad : Padding) (pers : Persistence)
    (h : legalConfiguration eng pad pers = true) : (made eng pad pers).Inv :=
  State.single_inv (constructed_inv rfl h) (by cases eng <;> rfl)

/-- A CTR instance in the middle of a block, at `OFF = 15`. -/
def midBlock : Instance :=
  { constructed .ctr .none .rollingPerUnit (bytes 16 0) (bytes 16 0) with
    cb := some (inc64 (pad16 (bytes 16 0)))
    off := some 15
    ks := some (aesEncrypt (keyExpansion (bytes 16 0)) (10 : BitVec 4).toNat (pad16 (bytes 16 0))) }

theorem midBlock_inv : midBlock.Inv := by
  refine ⟨fun h => (nomatch h), fun _ =>
    constructed_holdsConfiguration (eng := .ctr) (iv := bytes 16 0) rfl rfl, fun h => (nomatch h),
    fun _ => ⟨rfl, ⟨_, rfl⟩, fun _ => ⟨rfl, _, _, rfl, rfl, fun _ => ⟨_, _, rfl, rfl, ?_⟩⟩,
      fun h => (nomatch h)⟩⟩
  rw [previousCounterBlock_inc64]
  rfl

/-- A CTR instance at the start of a block is ready for CRYPT. -/
theorem made_ctrReady : ((made .ctr .none .rollingPerUnit).inst 0).CtrReady
    (keyExpansion (bytes 16 0)) 10 (pad16 (bytes 16 0)) 0 :=
  ⟨rfl, rfl, rfl, rfl, rfl, rfl, rfl, fun h => absurd rfl h⟩

theorem midBlock_ctrReady : ((State.single midBlock).inst 0).CtrReady
    (keyExpansion (bytes 16 0)) 10 (inc64 (pad16 (bytes 16 0))) 15 :=
  ⟨rfl, rfl, rfl, rfl, rfl, rfl, rfl, fun _ => ⟨_, rfl⟩⟩

/-- A RollingPerUnit CBC instance starts a call at `IVR`. -/
theorem made_cbcReady (pad : Padding) : ((made .cbc pad .rollingPerUnit).inst 0).CbcReady pad
    (keyExpansion (bytes 16 0)) 10 (pad16 (bytes 16 0)) :=
  ⟨rfl, rfl, rfl, rfl, rfl, rfl, .inl ⟨rfl, rfl⟩⟩

/-- A PersistAcrossCalls CBC instance starts a call at `CV`. -/
theorem made_cbcReady_persist : ((made .cbc .none .persistAcrossCalls).inst 0).CbcReady .none
    (keyExpansion (bytes 16 0)) 10 (pad16 (bytes 16 0)) :=
  ⟨rfl, rfl, rfl, rfl, rfl, rfl, .inr ⟨rfl, rfl⟩⟩

/-! ### Well-formedness: each check refuses an ill-formed term -/

theorem test_key_of_64_bytes_is_ill_formed :
    (Instr.construct .ctr .none .rollingPerUnit (bytes 64 0) (bytes 16 0)).wf = false := by decide

theorem test_iv_of_64_bytes_is_ill_formed :
    (Instr.construct .ctr .none .rollingPerUnit (bytes 16 0) (bytes 64 0)).wf = false ∧
      (Instr.setIv (bytes 64 0)).wf = false := by decide

theorem test_data_of_2_to_the_32_bytes_is_ill_formed (n : Nat) (h : 2 ^ 32 ≤ n) :
    (Instr.crypt 0 (bytes n 0)).wf = false := by
  rw [Instr.wf, fitsLen, bytes, List.length_replicate]
  exact decide_eq_false (Nat.not_lt.mpr h)

/-! ### Decoding: words written out bit by bit -/

/-- 30_encoding.md R72: CBC, CipherTextStealing, PersistAcrossCalls, KLEN 24, IVLEN 8. -/
theorem test_decode_construct :
    decodeTableWord 32 0b00000000000000100001100011010001 =
      some (.construct .cbc .cipherTextStealing .persistAcrossCalls (bytes 24 0) (bytes 8 0)) := by
  decide

/-- 30_encoding.md R73: IVLEN 17, which SET_IV rejects and the decoder does not (R85). -/
theorem test_decode_set_iv :
    decodeTableWord 32 0b00000000000001000100000000000010 = some (.setIv (bytes 17 0)) := by decide

/-- 30_encoding.md R74: the opcode alone, then `LEN` and `CAP`. -/
theorem test_decode_crypt :
    decodeTableWord 32 0b00000000000000000000000000000011 = some (.crypt 0 []) ∧
      decode ([3, 0, 0, 0] ++ [2, 0, 0, 0] ++ [1, 0, 0, 0, 0, 0, 0, 0x80] ++ [0xaa, 0xbb, 0xcc]) =
        .ok (.crypt 0x8000000000000001 [0xaa, 0xbb], [0xcc]) := by decide

/-- 95_test_vectors.md §5.1: reserved bits are checked before `PAD`. -/
theorem test_decode_rejects :
    decode [0x0f, 0, 0, 0] = .error .reservedOpcode ∧
      decode [0x61, 0x10, 0x04, 0x80] = .error .reservedBits ∧
      decode [0x61, 0x10, 0x04, 0x00] = .error .reservedPad ∧
      decode [0x03, 0x40, 0x00, 0x00] = .error .reservedBits := by decide

/-! ### Commands: one step each, on the vectors of 95_test_vectors.md -/

/-- §1.3 and P1 step 1: the last word of the key schedule of `K128`, `CB` and `OFF`. -/
theorem test_construct_expands_the_key :
    let x := (stateOf (exec (.construct .ctr .none .rollingPerUnit k128 ivc) State.reset)).inst 0
    x.rk.map (fun w => w.getD 43 0) = some 0xb6630ca6 ∧
      x.cb = some 0xf0f1f2f3f4f5f6f7f8f9fafbfcfdfeff ∧ x.off = some 0 := by
  decide +kernel

/-- §4.1: a CONSTRUCT that fails on a constructed instance resets it. -/
theorem test_construct_failure_resets :
    let s := stateOf (exec (.construct .ctr .pkcs5 .persistAcrossCalls k128 ivb)
      (made .cbc .none .rollingPerUnit))
    s.responses = [⟨0, ⟨0x21, 0, []⟩⟩] ∧ s.instances = [] := by
  decide +kernel

/-- §4.2: an 8-byte IV on a constructed CTR instance. -/
theorem test_set_iv_pads_the_iv :
    let x := (stateOf (exec (.setIv [0xf0, 0xf1, 0xf2, 0xf3, 0xf4, 0xf5, 0xf6, 0xf7])
      (State.single midBlock))).inst 0
    x.ivr = some 0xf0f1f2f3f4f5f6f70000000000000000 ∧
      x.cb = some 0xf0f1f2f3f4f5f6f70000000000000000 ∧ x.off = some 0 := by
  decide +kernel

/-- §4.2: on an instance that is not constructed the precondition comes before the IV. -/
theorem test_set_iv_needs_construct :
    (stateOf (exec (.setIv []) State.reset)).responses = [⟨0, ⟨0x13, 0, []⟩⟩] := by
  decide +kernel

/-- §2.2 row 1: 5 bytes of a CTR stream. -/
theorem test_crypt_ctr :
    let s := stateOf (exec (.crypt 5 [0x6b, 0xc1, 0xbe, 0xe2, 0x2e])
      (State.single (constructed .ctr .none .rollingPerUnit k128 ivc)))
    s.responses = [⟨0, ⟨0, 5, [0x87, 0x4d, 0x61, 0x91, 0xb6]⟩⟩] ∧
      (s.inst 0).cb = some 0xf0f1f2f3f4f5f6f7f8f9fafbfcfdff00 ∧ (s.inst 0).off = some 5 := by
  decide +kernel

/-- §7.3: 20 bytes with ciphertext stealing. -/
theorem test_crypt_cbc_steals :
    (stateOf (exec (.crypt 20 (seq 20))
      (State.single (constructed .cbc .cipherTextStealing .rollingPerUnit k128 ivb)))).responses =
    [⟨0, ⟨0, 20, blockBytes 0x4fc6d8783f90e5faa09a11c038a490d2 ++ [0x7d, 0xf7, 0x6b, 0x0c]⟩⟩] := by
  decide +kernel

/-- 60_exceptions.md R276 through `withFetchWord`: an illegal word after reset. -/
theorem test_step_rejects_a_word :
    (stateOf (step (State.reset.withFetchWord 32 0x00000004))).responses =
      [⟨0, ⟨0x14, 0, []⟩⟩] := by decide

/-! ### The AES core, the record and the assembler -/

/-- §1.1. -/
theorem test_field : xtime 0x57 = 0xae ∧ xtime 0xae = 0x47 ∧ gmul 0x53 0xca = 0x01 ∧
    sbox 0x53 = 0xed ∧ sbox 0xff = 0x16 := by decide +kernel

/-- §1.4, round 1. -/
theorem test_round :
    subBytes 0x193de3bea0f4e22b9ac68d2ae9f84808 = 0xd42711aee0bf98f1b8b45de51e415230 ∧
      shiftRows 0xd42711aee0bf98f1b8b45de51e415230 = 0xd4bf5d30e0b452aeb84111f11e2798e5 ∧
      mixColumns 0xd4bf5d30e0b452aeb84111f11e2798e5 = 0x046681e5e0cb199a48f8d37a2806264c := by
  decide +kernel

/-- §2.4: the counter wraps and the nonce stays. -/
theorem test_counter_wraps :
    inc64 0x0123456789abcdefffffffffffffffff = 0x0123456789abcdef0000000000000000 := by
  decide +kernel

/-- §2.3. -/
theorem test_advances : advances 5 20 = 1 ∧ advances 5 28 = 2 ∧ advances 15 1 = 0 := by decide

/-- Record M1 of §6, with a pattern `(n, m)`. -/
def m1 (n m : BitVec 8) : SampleMeta where
  keyId := bytes Config.keyIdLen 0
  iv := bytes 8 0
  subsamples := [⟨5, 20⟩, ⟨3, 12⟩]
  protectionScheme := .cenc
  patternCryptBlocks := n
  patternSkipBlocks := m

/-- §6: the cipher stream of M1. -/
theorem test_cipher_stream :
    cipherStream (m1 0 0) (seq 40) = ((seq 40).drop 5).take 20 ++ ((seq 40).drop 28).take 12 := rfl

/-- §6: M1 is valid for 40 bytes, M2 has 41 bytes, and M3 has a pattern that cenc does not allow. -/
theorem test_metadata_validity :
    metaValid (m1 0 0) 40 = true ∧ metaValid (m1 0 0) 41 = false ∧ metaValid (m1 1 9) 40 = false := by
  simp [metaValid, m1, bytes, spansLength, spanLength, schemeHasNoPattern, Config.maxSubsamples]

/-- Record M4 of §6: 100 cipher bytes under the pattern (1, 9). -/
def m4 : SampleMeta where
  keyId := bytes Config.keyIdLen 0
  iv := bytes 16 0
  subsamples := [⟨0, 100⟩]
  protectionScheme := .cbcs
  patternCryptBlocks := 1
  patternSkipBlocks := 9

/-- One logical stream, partial blocks clear, and keystream for the encrypted blocks only. -/
def oneStream : PatternReading := ⟨false, false, .encryptedBlocks⟩

/-- §6: block 0 of M4's stream is encrypted and blocks 1 to 6 are clear. -/
theorem test_pattern_runs :
    encryptedRuns oneStream m4 (seq 100) = [seq 16] := by decide

/-- 44_metadata.md R249, R251: the same record as cens, with keystream for every block. -/
theorem test_cens_pieces :
    sampleCommands { oneStream with censKeystream := .everyBlock } .oneCrypt
        { m4 with protectionScheme := .cens } (seq 100) =
      [.setIv m4.iv, pseudoCrypt (seq 16), pseudoCrypt ((seq 100).drop 16)] := rfl

/-- 30_encoding.md R88, R89. -/
theorem test_assembler :
    assembleLine "CRYPT cap=16, data=00fF ; a comment".toList = some (.crypt 16 [0x00, 0xff]) ∧
      assembleLine "CONSTRUCT_CBC cts, key=0102, iv=".toList =
        some (.construct .cbc .cipherTextStealing .rollingPerUnit [1, 2] []) := by
  decide +kernel

/-! ### Witnesses of the hypotheses: encoding and one step -/

theorem witness_DecodeOfEncodeIsTheCommand :
    (Instr.construct .cbc .pkcs5 .persistAcrossCalls (bytes 63 1) (bytes 63 2)).wf = true ∧
      (Instr.construct .ctr .none .rollingPerUnit [] []).wf = true ∧
      (Instr.setIv (bytes 63 3)).wf = true ∧ (Instr.setIv []).wf = true ∧
      (Instr.crypt 0xffffffffffffffff (bytes 17 4)).wf = true := by decide

theorem witness_EncodeOfDecodeIsTheRecord :
    decode [0x02, 0x40, 0x00, 0x00, 0xff, 0xaa] = .ok (.setIv [0xff], [0xaa]) := by decide

theorem witness_EncodingExamplesOfTheTable :
    (bytes 16 0).length = 16 ∧ (bytes 32 0).length = 32 ∧ (bytes 24 0).length = 24 ∧
      (bytes 8 0).length = 8 := by decide

/-- One command word for each branch, and a whole and a short record for the last two. -/
theorem witness_DecoderChecksInOrder :
    (cwOp 0x00000000 ≠ 1 ∧ cwOp 0x00000000 ≠ 2 ∧ cwOp 0x00000000 ≠ 3) ∧
    (cwOp 0x00100061 = 1 ∧ (0x00100061 : Word).extractLsb' 20 12 ≠ 0) ∧
    (cwOp 0x00002002 = 2 ∧ (0x00002002 : Word).extractLsb' 4 10 ≠ 0) ∧
    (cwOp 0x80000002 = 2 ∧ (0x80000002 : Word).extractLsb' 20 12 ≠ 0) ∧
    (cwOp 0x80000003 = 3 ∧ (0x80000003 : Word).extractLsb' 4 28 ≠ 0) ∧
    (cwOp 0x00041061 = 1 ∧ (0x00041061 : Word).extractLsb' 5 2 = 3) ∧
    recordLength (leBytes 4 0x00004002 ++ [0xaa]) = 5 ∧
    recordLength (leBytes 4 0x00000003 ++ [0x01]) = 17 := by decide

theorem witness_RecordsOfTheProgramsDecode : k128.length = 16 ∧ ivb.length = 16 ∧
    (bytes 8 0).length = 8 := by decide

/-- The state in which a record is delivered to instance 0 after reset. -/
def delivered (record : List Byte) : State :=
  { State.reset with input := [.command 0 record] }

theorem reset_table_inv (queue : List HostEvent) : State.Inv { State.reset with input := queue } :=
  ⟨rfl, fun _ => Instance.reset_inv⟩

theorem witness_StepPerformsTheDecodedCommand :
    (delivered [2, 0x40, 0, 0, 0]).input = .command 0 [2, 0x40, 0, 0, 0] :: [] ∧
      decode [2, 0x40, 0, 0, 0] = .ok (.setIv [0], []) := by decide

/-- Any record delivered after reset; the words of each branch are those of
`witness_DecoderChecksInOrder`. -/
theorem witness_IllegalCommandChangesNothing (cw : Word) (payload : List Byte) :
    (delivered (leBytes 4 cw.toNat ++ payload)).Inv ∧
      (delivered (leBytes 4 cw.toNat ++ payload)).input =
        .command 0 (leBytes 4 cw.toNat ++ payload) :: [] ∧ instanceExists 0 = true :=
  ⟨reset_table_inv _, rfl, rfl⟩

theorem witness_StepsOutsideTheInterface :
    State.reset.input = [] ∧ (delivered [3, 0, 0]).input = .command 0 [3, 0, 0] :: [] ∧
      decode [3, 0, 0] = .error .incomplete ∧
      instanceExists { State.reset with sel := Config.instanceCount }.sel = false := by
  refine ⟨rfl, rfl, rfl, ?_⟩
  simp [Config.instanceCount, instanceExists]

theorem witness_PlatformResetClearsEveryInstance :
    ({ made .cbc .none .persistAcrossCalls with input := [.platformReset] } : State).input =
      .platformReset :: [] := rfl

/-! ### Witnesses: CONSTRUCT and SET_IV -/

theorem witness_ConstructTakesTheConfiguration :
    instanceExists State.reset.sel = true ∧ legalConfiguration .ctr .none .rollingPerUnit = true ∧
      legalConfiguration .cbc .none .persistAcrossCalls = true ∧ k128.length ∈ [16, 24, 32] ∧
      (bytes 32 0).length ∈ [16, 24, 32] ∧ 1 ≤ (bytes 1 0).length ∧ ivb.length ≤ 16 := by decide

theorem witness_ConstructDiscardsTheKeystreamBlock :
    (State.single midBlock).Inv ∧ ∃ t, exec (.construct .ctr .none .rollingPerUnit k128 ivb)
      (State.single midBlock) = .next t :=
  ⟨State.single_inv midBlock_inv rfl, _, rfl⟩

/-- One case for each check, the first failing one first, and the case that passes. -/
theorem witness_ConstructFailsOnTheFirstCheck :
    instanceExists State.reset.sel = true ∧ (bytes 15 0).length ∉ [16, 24, 32] ∧
      (bytes 33 0).length ∉ [16, 24, 32] ∧ k128.length ∈ [16, 24, 32] ∧
      Padding.pkcs5 ≠ .none ∧ (bytes 17 0).length = 17 ∧
      legalConfiguration .cbc .pkcs5 .rollingPerUnit = true ∧
      legalConfiguration .cbc .pkcs5 .persistAcrossCalls = false := by decide

theorem witness_ShortIvsArePaddedWithZeros :
    (1 ≤ (bytes 1 0xff).length ∧ (bytes 1 0xff).length ≤ 16) ∧
      (1 ≤ (bytes 16 0xff).length ∧ (bytes 16 0xff).length ≤ 16) := by decide

theorem witness_SetIvLoadsTheRunningState :
    (instanceExists (State.single midBlock).sel = true ∧
      ((State.single midBlock).inst 0).configured = true ∧
      ((State.single midBlock).inst 0).eng = some .ctr ∧ 1 ≤ (bytes 1 0).length) ∧
    (((made .cbc .none .persistAcrossCalls).inst 0).configured = true ∧
      ((made .cbc .none .persistAcrossCalls).inst 0).eng = some .cbc ∧ (bytes 16 0).length ≤ 16) :=
  ⟨⟨rfl, rfl, rfl, by decide⟩, rfl, rfl, by decide⟩

theorem witness_SetIvFailureInvalidatesTheIv :
    instanceExists (State.single midBlock).sel = true ∧
      ((State.single midBlock).inst 0).configured = true ∧
      ([] : List Byte).length = 0 ∧ 16 < (bytes 17 0).length :=
  ⟨rfl, rfl, rfl, by decide⟩

/-- A constructed instance whose SET_IV failed. -/
def noIv : Instance := invalidateIv midBlock

theorem noIv_inv : noIv.Inv :=
  ⟨fun h => (nomatch h), fun _ => midBlock_inv.2.1 rfl, fun _ => ⟨rfl, rfl, rfl, rfl, rfl⟩,
    fun h => (nomatch h)⟩

theorem witness_PreconditionErrorsChangeNothing :
    instanceExists State.reset.sel = true ∧ (State.reset.inst 0).configured = false ∧
      ((State.single noIv).inst 0).configured = true ∧
      ((State.single noIv).inst 0).ivValid = false := ⟨rfl, rfl, rfl, rfl⟩

/-- A failed CONSTRUCT, a failed SET_IV, and a CONSTRUCT that repairs. -/
theorem witness_FailuresAreReportedUntilRepaired :
    (State.single midBlock).Inv ∧ instanceExists (State.single midBlock).sel = true ∧
    (∃ t, exec (.construct .ctr .pkcs5 .rollingPerUnit k128 ivb) (State.single midBlock) = .next t ∧
      t.responses.getLast? ≠ some ⟨0, ⟨0, 0, []⟩⟩) ∧
    (((State.single midBlock).inst 0).configured = true ∧
      ∃ t, exec (.setIv []) (State.single midBlock) = .next t ∧
        t.responses.getLast? ≠ some ⟨0, ⟨0, 0, []⟩⟩) ∧
    (1 ≤ (bytes 1 0).length ∧ (bytes 1 0).length ≤ 16) ∧
    (legalConfiguration .cbc .none .persistAcrossCalls = true ∧ k128.length ∈ [16, 24, 32] ∧
      1 ≤ ivb.length ∧ ivb.length ≤ 16) :=
  ⟨State.single_inv midBlock_inv rfl, rfl, ⟨_, rfl, by decide⟩, ⟨rfl, _, rfl, by decide⟩, by decide,
    by decide⟩

theorem witness_ConfigurationCommandsAreIdempotent :
    (State.single midBlock).Inv ∧ (∀ cap data, Instr.setIv (bytes 8 1) ≠ .crypt cap data) ∧
      ∃ t u, exec (.setIv (bytes 8 1)) (State.single midBlock) = .next t ∧
        t.responses.getLast? = some ⟨0, ⟨0, 0, []⟩⟩ ∧ exec (.setIv (bytes 8 1)) t = .next u :=
  ⟨State.single_inv midBlock_inv rfl, nofun, _, _, rfl, rfl, rfl⟩

/-! ### Witnesses: responses and CRYPT -/

theorem witness_OneResponseWithAListedStatus :
    (Instr.setIv [0]).wf = true ∧ ∃ t, exec (.setIv [0]) State.reset = .next t :=
  ⟨rfl, _, rfl⟩

theorem witness_CommandsAreDeterminedByTheirInstance :
    instanceExists 0 = true ∧
      ∃ t, step { State.single noIv with input := [.command 0 (encode (.crypt 0 [0]))] } = .next t ∧
        State.inst { State.single noIv with input := [.command 0 (encode (.crypt 0 [0]))] } 0 =
          State.inst { State.single noIv with
            responses := [⟨0, raise .capacity⟩]
            input := .command 0 (encode (.crypt 0 [0])) :: [.platformReset] } 0 :=
  ⟨rfl, _, rfl, rfl⟩

/-- Ready instances of both engines; the capacities 3 and 4 lie on the two sides for 4 bytes of CTR
data, 15 and 16 for empty data under Pkcs5. -/
theorem witness_CapacityErrorBelowTheRequiredLength :
    instanceExists (made .ctr .none .rollingPerUnit).sel = true ∧
      ((made .ctr .none .rollingPerUnit).inst 0).CtrReady (keyExpansion (bytes 16 0)) 10
        (pad16 (bytes 16 0)) 0 ∧
      ((made .cbc .pkcs5 .rollingPerUnit).inst 0).CbcReady .pkcs5 (keyExpansion (bytes 16 0)) 10
        (pad16 (bytes 16 0)) ∧
      (3 : BitVec 64).toNat < (bytes 4 0).length ∧ ¬ (4 : BitVec 64).toNat < (bytes 4 0).length ∧
      (15 : BitVec 64).toNat < 0 + (16 - 0 % 16) ∧ ¬ (16 : BitVec 64).toNat < 0 + (16 - 0 % 16) :=
  ⟨rfl, made_ctrReady, made_cbcReady .pkcs5, by decide⟩

/-- A response with output, and a buffer that it does not fill. -/
theorem witness_OutputFitsTheHostBuffer :
    (∃ t, exec (.crypt 5 [1, 2, 3]) (made .cbc .none .rollingPerUnit) = .next t) ∧
      (bytes 5 0).length = (5 : BitVec 64).toNat ∧ (respondOk [1, 2, 3]).status ≠ 0x02 :=
  ⟨⟨_, rfl⟩, by decide⟩

theorem witness_CtrCryptXorsTheKeystream :
    instanceExists (State.single midBlock).sel = true ∧
      ((State.single midBlock).inst 0).CtrReady (keyExpansion (bytes 16 0)) 10
        (inc64 (pad16 (bytes 16 0))) 15 ∧ (bytes 2 0).length ≤ (2 : BitVec 64).toNat :=
  ⟨rfl, midBlock_ctrReady, by decide⟩

theorem witness_AdvancesCountsTheBlockStarts : (0 : Nat) < 16 ∧ (15 : Nat) < 16 := by decide

theorem witness_CtrStreamingProperty :
    (State.single midBlock).Inv ∧ instanceExists (State.single midBlock).sel = true ∧
      ((State.single midBlock).inst 0).CtrReady (keyExpansion (bytes 16 0)) 10
        (inc64 (pad16 (bytes 16 0))) 15 ∧
      (∀ c ∈ [((5 : BitVec 64), bytes 5 1), (20, bytes 20 2), (7, bytes 7 3)],
        c.2.length ≤ c.1.toNat) ∧
      ([((5 : BitVec 64), bytes 5 1), (20, bytes 20 2), (7, bytes 7 3)].map Prod.snd).flatten.length ≤
        (32 : BitVec 64).toNat :=
  ⟨State.single_inv midBlock_inv rfl, rfl, midBlock_ctrReady, by decide, by decide⟩

theorem witness_CtrIsItsOwnInverse :
    instanceExists (State.single midBlock).sel = true ∧
      (State.single midBlock).inst 0 =
        { State.single midBlock with responses := [⟨0, respondOk []⟩] }.inst 0 ∧
      ((State.single midBlock).inst 0).CtrReady (keyExpansion (bytes 16 0)) 10
        (inc64 (pad16 (bytes 16 0))) 15 ∧
      (bytes 17 0).length ≤ (17 : BitVec 64).toNat ∧ (bytes 17 0).length ≤ (20 : BitVec 64).toNat :=
  ⟨rfl, rfl, midBlock_ctrReady, by decide⟩

theorem witness_EmptyCtrCryptChangesNothing :
    instanceExists (State.single midBlock).sel = true ∧
      ((State.single midBlock).inst 0).configured = true ∧
      ((State.single midBlock).inst 0).ivValid = true ∧
      ((State.single midBlock).inst 0).eng = some .ctr := ⟨rfl, rfl, rfl, rfl⟩

theorem witness_CbcWithoutPadding :
    instanceExists (made .cbc .none .persistAcrossCalls).sel = true ∧
      ((made .cbc .none .persistAcrossCalls).inst 0).CbcReady .none (keyExpansion (bytes 16 0)) 10
        (pad16 (bytes 16 0)) ∧
      ((made .cbc .none .rollingPerUnit).inst 0).CbcReady .none (keyExpansion (bytes 16 0)) 10
        (pad16 (bytes 16 0)) ∧ (bytes 21 0).length ≤ (21 : BitVec 64).toNat :=
  ⟨rfl, made_cbcReady_persist, made_cbcReady .none, by decide⟩

theorem witness_CbcWithPkcs5IsStandardCbcOfThePaddedData :
    instanceExists (made .cbc .pkcs5 .rollingPerUnit).sel = true ∧
      ((made .cbc .pkcs5 .rollingPerUnit).inst 0).CbcReady .pkcs5 (keyExpansion (bytes 16 0)) 10
        (pad16 (bytes 16 0)) ∧
      (bytes 0 0).length + (16 - (bytes 0 0).length % 16) ≤ (16 : BitVec 64).toNat ∧
      (bytes 15 0).length + (16 - (bytes 15 0).length % 16) ≤ (16 : BitVec 64).toNat :=
  ⟨rfl, made_cbcReady .pkcs5, by decide⟩

/-- Without a residual and with one. -/
theorem witness_CiphertextStealing :
    instanceExists (made .cbc .cipherTextStealing .rollingPerUnit).sel = true ∧
      ((made .cbc .cipherTextStealing .rollingPerUnit).inst 0).CbcReady .cipherTextStealing
        (keyExpansion (bytes 16 0)) 10 (pad16 (bytes 16 0)) ∧
      (16 ≤ (bytes 16 0).length ∧ (bytes 16 0).length ≤ (16 : BitVec 64).toNat ∧
        (bytes 16 0).length % 16 = 0) ∧
      (16 ≤ (bytes 17 0).length ∧ (bytes 17 0).length ≤ (17 : BitVec 64).toNat ∧
        (bytes 17 0).length % 16 ≠ 0) :=
  ⟨rfl, made_cbcReady .cipherTextStealing, by decide⟩

theorem witness_ShortCiphertextStealingPassesThrough :
    instanceExists (made .cbc .cipherTextStealing .rollingPerUnit).sel = true ∧
      ((made .cbc .cipherTextStealing .rollingPerUnit).inst 0).CbcReady .cipherTextStealing
        (keyExpansion (bytes 16 0)) 10 (pad16 (bytes 16 0)) ∧
      (bytes 15 0).length < 16 ∧ (bytes 15 0).length ≤ (15 : BitVec 64).toNat :=
  ⟨rfl, made_cbcReady .cipherTextStealing, by decide⟩

theorem witness_CbcOutputLength :
    ((made .cbc .none .rollingPerUnit).inst 0).CbcReady .none (keyExpansion (bytes 16 0)) 10
      (pad16 (bytes 16 0)) ∧ (bytes 5 0).length < 2 ^ 32 ∧
    ∃ t r, exec (.crypt 5 (bytes 5 0)) (made .cbc .none .rollingPerUnit) = .next t ∧
      t.responses = (made .cbc .none .rollingPerUnit).responses ++ [⟨0, r⟩] ∧ r.status = 0x00 :=
  ⟨made_cbcReady .none, by decide, _, _, rfl, rfl, rfl⟩

theorem witness_RollingCbcRepeats :
    (made .cbc .pkcs5 .rollingPerUnit).Inv ∧
      instanceExists (made .cbc .pkcs5 .rollingPerUnit).sel = true ∧
      ((made .cbc .pkcs5 .rollingPerUnit).inst 0).CbcReady .pkcs5 (keyExpansion (bytes 16 0)) 10
        (pad16 (bytes 16 0)) ∧
      ((made .cbc .pkcs5 .rollingPerUnit).inst 0).pers = some .rollingPerUnit ∧
      (bytes 16 0).length + 16 ≤ (32 : BitVec 64).toNat :=
  ⟨made_inv _ _ _ rfl, rfl, made_cbcReady .pkcs5, rfl, by decide⟩

theorem witness_PersistentCbcContinues :
    (made .cbc .none .persistAcrossCalls).Inv ∧
      instanceExists (made .cbc .none .persistAcrossCalls).sel = true ∧
      ((made .cbc .none .persistAcrossCalls).inst 0).CbcReady .none (keyExpansion (bytes 16 0)) 10
        (pad16 (bytes 16 0)) ∧
      ((made .cbc .none .persistAcrossCalls).inst 0).pers = some .persistAcrossCalls ∧
      (bytes 16 0xaa).length % 16 = 0 ∧ (bytes 16 0xaa).length ≤ (16 : BitVec 64).toNat ∧
      (bytes 20 0xaa).length ≤ (20 : BitVec 64).toNat ∧
      (bytes 16 0xaa).length + (bytes 20 0xaa).length ≤ (36 : BitVec 64).toNat :=
  ⟨made_inv _ _ _ rfl, rfl, made_cbcReady_persist, rfl, by decide⟩

/-! ### Witnesses: frames and whole-machine rules -/

theorem witness_OtherInstancesAreUntouched :
    ∃ t, exec (.setIv [0]) (State.single midBlock) = .next t := ⟨_, rfl⟩

/-- A SET_IV that succeeds on either engine, and one that fails. -/
theorem witness_SetIvFrame :
    ((State.single midBlock).Inv ∧ ∃ t, exec (.setIv [0]) (State.single midBlock) = .next t) ∧
    ((made .cbc .none .persistAcrossCalls).Inv ∧
      ∃ t, exec (.setIv (bytes 16 0)) (made .cbc .none .persistAcrossCalls) = .next t) ∧
    (∃ t, exec (.setIv (bytes 17 0)) (State.single midBlock) = .next t) :=
  ⟨⟨State.single_inv midBlock_inv rfl, _, rfl⟩, ⟨made_inv _ _ _ rfl, _, rfl⟩, _, rfl⟩

/-- A CRYPT on either engine. -/
theorem witness_CryptFrame :
    (tableWf 0 (State.single midBlock).instances = true ∧
      ∃ t, exec (.crypt 1 [0]) (State.single midBlock) = .next t) ∧
    (tableWf 0 (made .cbc .none .persistAcrossCalls).instances = true ∧
      ∃ t, exec (.crypt 1 [0]) (made .cbc .none .persistAcrossCalls) = .next t) :=
  ⟨⟨(State.single_inv midBlock_inv rfl).1, _, rfl⟩, ⟨(made_inv _ _ _ rfl).1, _, rfl⟩⟩

theorem witness_EveryStepKeepsTheInvariants :
    (delivered (encode (.construct .ctr .none .rollingPerUnit k128 ivb))).Inv ∧
      ∃ t, step (delivered (encode (.construct .ctr .none .rollingPerUnit k128 ivb))) = .next t :=
  ⟨reset_table_inv _, _, rfl⟩

theorem witness_NoCommandReadsARegisterWithoutValue :
    (State.single midBlock).Inv ∧ instanceExists (State.single midBlock).sel = true ∧
      (State.single noIv).Inv :=
  ⟨State.single_inv midBlock_inv rfl, rfl, State.single_inv noIv_inv rfl⟩

theorem witness_TheMachineNeverStops :
    (delivered [4, 0, 0, 0]).Inv ∧ (delivered [4, 0, 0, 0]).inputAllowed = true :=
  ⟨reset_table_inv _, by decide⟩

/-- A state no run reaches: an IV that is valid while the engine, or the keystream block in the
middle of a block, holds no value. -/
theorem witness_ReadingNoValueFaults :
    (((State.single { midBlock with eng := none }).inst 0).configured = true ∧
      ((State.single { midBlock with eng := none }).inst 0).ivValid = true ∧
      ((State.single { midBlock with eng := none }).inst 0).eng = none) ∧
    (((State.single { midBlock with ks := none }).inst 0).configured = true ∧
      ((State.single { midBlock with ks := none }).inst 0).ivValid = true ∧
      ((State.single { midBlock with ks := none }).inst 0).eng = some .ctr ∧
      ((State.single { midBlock with ks := none }).inst 0).ks = none ∧
      ((State.single { midBlock with ks := none }).inst 0).off = some 15 ∧ (15 : BitVec 4) ≠ 0 ∧
      bytes 1 0 ≠ [] ∧ (bytes 1 0).length ≤ (1 : BitVec 64).toNat) ∧
    instanceExists (State.single midBlock).sel = true :=
  ⟨⟨rfl, rfl, rfl⟩, ⟨rfl, rfl, rfl, rfl, rfl, by decide, by decide, by decide⟩, rfl⟩

theorem witness_CommandsToDifferentInstancesCommute :
    (State.single midBlock).Inv ∧ (0 : Nat) ≠ 1 ∧ instanceExists 0 = true ∧
      recordWhole (encode (.setIv [0])) = true ∧ recordWhole (encode (.crypt 1 [0])) = true :=
  ⟨State.single_inv midBlock_inv rfl, by decide⟩

/-! ### Witnesses: the AES core, the record and the assembler -/

theorem witness_SboxTableIsTheAffineMapOfTheInverse : (0x53 : Byte) ≠ 0x00 := by decide

theorem witness_KeyExpansionRecurrence :
    (bytes 16 0).length ∈ [16, 24, 32] ∧ (bytes 24 0).length ∈ [16, 24, 32] ∧
      (bytes 32 0).length ∈ [16, 24, 32] := by decide

theorem witness_RoundTransformationsCellByCell :
    ((0 : Nat) < 4 ∧ (0 : Nat) < 4) ∧ ((3 : Nat) < 4 ∧ (3 : Nat) < 4) := by decide

theorem witness_CipherStreamLength : metaValid (m1 0 0) (seq 40).length = true :=
  test_metadata_validity.1

theorem witness_CipherSpansLieAtTheirOffsets : 1 < (m1 0 0).subsamples.length := by decide

theorem witness_CencSpansAreOneLogicalStream :
    (State.single midBlock).Inv ∧ instanceExists (State.single midBlock).sel = true ∧
      ((State.single midBlock).inst 0).configured = true ∧
      ((State.single midBlock).inst 0).eng = some .ctr ∧
      ((State.single midBlock).inst 0).rk = some (keyExpansion (bytes 16 0)) ∧
      ((State.single midBlock).inst 0).nr = some 10 ∧ metaValid (m1 0 0) (seq 40).length = true ∧
      (cipherStream (m1 0 0) (seq 40)).length ≤ (32 : BitVec 64).toNat :=
  ⟨State.single_inv midBlock_inv rfl, rfl, rfl, rfl, rfl, rfl, test_metadata_validity.1, by decide⟩

theorem witness_CbcsRunsAreOneChain :
    (made .cbc .none .persistAcrossCalls).Inv ∧
      instanceExists (made .cbc .none .persistAcrossCalls).sel = true ∧
      ((made .cbc .none .persistAcrossCalls).inst 0).configured = true ∧
      ((made .cbc .none .persistAcrossCalls).inst 0).eng = some .cbc ∧
      ((made .cbc .none .persistAcrossCalls).inst 0).pad = some .none ∧
      ((made .cbc .none .persistAcrossCalls).inst 0).pers = some .persistAcrossCalls ∧
      ((made .cbc .none .persistAcrossCalls).inst 0).rk = some (keyExpansion (bytes 16 0)) ∧
      ((made .cbc .none .persistAcrossCalls).inst 0).nr = some 10 ∧
      metaValid m4 (seq 100).length = true ∧
      ∀ run ∈ encryptedRuns oneStream m4 (seq 100), run.length % 16 = 0 := by
  refine ⟨made_inv _ _ _ rfl, rfl, rfl, rfl, rfl, rfl, rfl, rfl, ?_, ?_⟩
  · simp [metaValid, m4, bytes, seq, spansLength, spanLength, schemeHasNoPattern, Config.maxSubsamples]
  · rw [test_pattern_runs]
    decide

theorem witness_PatternEncryptsTheFirstBlocksOfEachRun : (0 : Nat) < 1 + 9 ∧ (9 : Nat) < 1 + 9 := by
  decide

theorem witness_AssembledCommandsEncode :
    assembleLine "SET_IV iv=00".toList = some (.setIv [0]) ∧ (bytes 16 0).length < 2 ^ 32 := by
  decide +kernel

end Sys2Proof.Tests
end

section
/-!
The laws of GF(2^8) that the S-box and MixColumns need (40_aes_core.md R100-R102). The key fact is
`map_gmul`: an XOR-linear map that commutes with `xtime` commutes with every right factor. The other
laws are instances of it.
-/
namespace Sys2Proof.Machine

theorem xtime_xor (a b : Byte) : xtime (a ^^^ b) = xtime a ^^^ xtime b := by
  have hfold : ∀ p q : Bool, (if (p ^^ q) = true then 0x1b else 0x00 : Byte) =
      (if p = true then 0x1b else 0x00) ^^^ (if q = true then 0x1b else 0x00) := by decide
  rw [xtime, xtime, xtime, BitVec.shiftLeft_xor_distrib, BitVec.getLsbD_xor, hfold]
  ac_rfl

/-- The loop of `gmul` commutes with any XOR-linear map that commutes with `xtime`. -/
theorem map_foldl_gmulStep {f : Byte → Byte} (hxor : ∀ x y, f (x ^^^ y) = f x ^^^ f y)
    (hxtime : ∀ x, f (xtime x) = xtime (f x)) (b : Byte) (l : List Nat) (r a : Byte) :
    l.foldl (gmulStep b) (f r, f a) = Prod.map f f (l.foldl (gmulStep b) (r, a)) := by
  induction l generalizing r a with
  | nil => rfl
  | cons i l ih =>
    rw [List.foldl_cons, List.foldl_cons, gmulStep, gmulStep, ← ih, ← hxor, ← hxtime, ← apply_ite f]

theorem map_gmul {f : Byte → Byte} (hxor : ∀ x y, f (x ^^^ y) = f x ^^^ f y)
    (hxtime : ∀ x, f (xtime x) = xtime (f x)) (a b : Byte) : f (gmul a b) = gmul (f a) b := by
  have hzero : f 0 = 0 := by simpa using hxor 0 0
  have hloop := map_foldl_gmulStep hxor hxtime b (List.range 8) 0 a
  rw [hzero] at hloop
  rw [gmul, gmul, hloop, Prod.map_fst]

/-- The loop of `gmul` is XOR-linear in its running pair. -/
theorem foldl_gmulStep_xor (b : Byte) (l : List Nat) (r r' a a' : Byte) :
    l.foldl (gmulStep b) (r ^^^ r', a ^^^ a') =
      ((l.foldl (gmulStep b) (r, a)).1 ^^^ (l.foldl (gmulStep b) (r', a')).1,
        (l.foldl (gmulStep b) (r, a)).2 ^^^ (l.foldl (gmulStep b) (r', a')).2) := by
  induction l generalizing r r' a a' with
  | nil => rfl
  | cons i l ih =>
    rw [List.foldl_cons, List.foldl_cons, List.foldl_cons, gmulStep, gmulStep, gmulStep, ← ih,
      xtime_xor]
    cases b.getLsbD i
    · rfl
    · simp only [if_true]
      rw [show r ^^^ r' ^^^ (a ^^^ a') = r ^^^ a ^^^ (r' ^^^ a') by ac_rfl]

theorem xor_gmul (a a' b : Byte) : gmul (a ^^^ a') b = gmul a b ^^^ gmul a' b :=
  congrArg Prod.fst (foldl_gmulStep_xor b (List.range 8) 0 0 a a')

theorem xtime_gmul (a b : Byte) : gmul (xtime a) b = xtime (gmul a b) :=
  (map_gmul xtime_xor (fun _ => rfl) a b).symm

theorem one_gmul (b : Byte) : gmul 1 b = b := by
  revert b
  decide +kernel

/-- Multiplication by a right factor is itself such a map, so right factors change places. -/
theorem gmul_right_comm (a b c : Byte) : gmul (gmul a b) c = gmul (gmul a c) b :=
  map_gmul (f := fun x => gmul x c) (fun x y => xor_gmul x y c) (fun x => xtime_gmul x c) a b

theorem gmul_comm (a b : Byte) : gmul a b = gmul b a := by
  have h := gmul_right_comm 1 a b
  rwa [one_gmul, one_gmul] at h

theorem gmul_assoc (a b c : Byte) : gmul (gmul a b) c = gmul a (gmul b c) := by
  rw [gmul_comm a b, gmul_right_comm, gmul_comm (gmul b c) a]

theorem gmul_one (a : Byte) : gmul a 1 = a := by rw [gmul_comm, one_gmul]

theorem two_gmul (a : Byte) : gmul 2 a = xtime a := by
  rw [gmul_comm]
  exact BitVec.zero_xor

theorem three_gmul (a : Byte) : gmul 3 a = xtime a ^^^ a := by
  rw [show (3 : Byte) = 2 ^^^ 1 from rfl, xor_gmul, two_gmul, one_gmul]

end Sys2Proof.Machine
end

section
/-!
Powers and inverses in GF(2^8) (40_aes_core.md R103). `a ↦ a^256` is XOR-linear, since squaring is,
and fixes `01` and `02`; so it is the identity, and whatever is an inverse of `a` is `a^254`.
-/
namespace Sys2Proof.Machine

theorem gmul_xor (a b b' : Byte) : gmul a (b ^^^ b') = gmul a b ^^^ gmul a b' := by
  rw [gmul_comm, xor_gmul, gmul_comm b, gmul_comm b']

theorem gmul_zero (a : Byte) : gmul a 0 = 0 := by
  simpa using gmul_xor a 0 0

@[simp] theorem gpow_one (a : Byte) : gpow a 1 = a := one_gmul a

theorem gpow_add (a : Byte) (m n : Nat) : gpow a (m + n) = gmul (gpow a m) (gpow a n) := by
  induction n with
  | zero => exact (gmul_one _).symm
  | succ n ih => rw [← Nat.add_assoc, gpow, gpow, ih, gmul_assoc]

theorem gpow_gmul (a b : Byte) (n : Nat) : gpow (gmul a b) n = gmul (gpow a n) (gpow b n) := by
  induction n with
  | zero => exact (one_gmul 1).symm
  | succ n ih =>
    rw [gpow, gpow, gpow, ih, ← gmul_assoc, ← gmul_assoc, gmul_right_comm (gpow a n)]

theorem xor_gmul_self (a b : Byte) : gmul (a ^^^ b) (a ^^^ b) = gmul a a ^^^ gmul b b := by
  rw [xor_gmul, gmul_xor, gmul_xor, gmul_comm b a]
  calc gmul a a ^^^ gmul a b ^^^ (gmul a b ^^^ gmul b b)
      = gmul a a ^^^ gmul b b ^^^ (gmul a b ^^^ gmul a b) := by ac_rfl
    _ = gmul a a ^^^ gmul b b := by rw [BitVec.xor_self, BitVec.xor_zero]

theorem gpow_two_pow_succ (a : Byte) (n : Nat) :
    gpow a (2 ^ (n + 1)) = gmul (gpow a (2 ^ n)) (gpow a (2 ^ n)) := by
  rw [Nat.pow_succ, Nat.mul_two, gpow_add]

theorem xor_gpow_two_pow (a b : Byte) (n : Nat) :
    gpow (a ^^^ b) (2 ^ n) = gpow a (2 ^ n) ^^^ gpow b (2 ^ n) := by
  induction n with
  | zero => simp
  | succ n ih => simp only [gpow_two_pow_succ, ih, xor_gmul_self]

theorem gpow_256 (a : Byte) : gpow a 256 = a := by
  have htwo : gpow 2 256 = 2 := by decide +kernel
  have hxtime (x : Byte) : gpow (xtime x) 256 = xtime (gpow x 256) := by
    rw [← two_gmul, gpow_gmul, htwo, two_gmul]
  have hone : gpow 1 256 = 1 := by decide +kernel
  have hmap := map_gmul (f := fun x => gpow x 256) (fun x y => xor_gpow_two_pow x y 8) hxtime 1 a
  rwa [one_gmul, hone, one_gmul] at hmap

theorem ginv_zero : ginv 0 = 0 := gmul_zero _

theorem eq_ginv_of_gmul_eq_one {a b : Byte} (h : gmul a b = 1) : b = ginv a := by
  calc b = gmul (gmul a b) b := by rw [h, one_gmul]
    _ = gmul (gmul (gpow a 256) b) b := by rw [gpow_256]
    _ = gmul (gmul (gmul (gmul (ginv a) a) a) b) b := rfl
    _ = gmul (gmul (ginv a) (gmul a b)) (gmul a b) := by
      rw [gmul_right_comm (gmul (ginv a) a), gmul_assoc _ a b, gmul_assoc _ a b]
    _ = ginv a := by rw [h, gmul_one, gmul_one]

end Sys2Proof.Machine
end

section
/-!
The S-box (40_aes_core.md R104). Undoing the affine map on an entry of the table gives a byte that
inverts the entry's index, so it is the inverse.
-/
namespace Sys2Proof.Machine

/-- The inverse of the affine map `sboxAffine`. -/
def sboxAffineInverse (b : Byte) : Byte :=
  b.rotateLeft 1 ^^^ b.rotateLeft 3 ^^^ b.rotateLeft 6 ^^^ 0x05

theorem sboxAffine_sboxAffineInverse (b : Byte) : sboxAffine (sboxAffineInverse b) = b := by
  revert b
  decide +kernel

theorem gmul_sboxAffineInverse_sbox {a : Byte} (h : a ≠ 0) :
    gmul a (sboxAffineInverse (sbox a)) = 1 := by
  revert a
  decide +kernel

theorem gmul_ginv {a : Byte} (h : a ≠ 0) : gmul a (ginv a) = 1 := by
  have hinv := gmul_sboxAffineInverse_sbox h
  rwa [← eq_ginv_of_gmul_eq_one hinv]

theorem sbox_eq_sboxAffine_ginv (a : Byte) : sbox a = sboxAffine (ginv a) := by
  by_cases h : a = 0
  · rw [h, ginv_zero]
    decide
  · rw [← eq_ginv_of_gmul_eq_one (gmul_sboxAffineInverse_sbox h), sboxAffine_sboxAffineInverse]

/-- Settles O49: an inverse of `a` can only be `a^254`, and undoing the affine map on the table's
entry gives one. -/
theorem sboxTableIsTheAffineMapOfTheInverse : Obligations.SboxTableIsTheAffineMapOfTheInverse :=
  ⟨sbox_eq_sboxAffine_ginv, ginv_zero, fun _ h => ⟨gmul_ginv h, fun _ => eq_ginv_of_gmul_eq_one⟩⟩

end Sys2Proof.Machine
end

section
/-!
The transformations of a round, read cell by cell (40_aes_core.md R112-R115).
-/
namespace Sys2Proof.Machine

theorem cell_ofCells (f : Nat → Nat → Byte) {r c : Nat} (hr : r < 4) (hc : c < 4) :
    cell (ofCells f) r c = f r c := by
  rw [cell, ofCells, blockByte_blockOfFn _ _ (by omega)]
  congr <;> omega

theorem mixCell_eq_gmul (s : Block) (r c : Nat) :
    mixCell s r c = gmul 2 (cell s r c) ^^^ gmul 3 (cell s ((r + 1) % 4) c) ^^^
      cell s ((r + 2) % 4) c ^^^ cell s ((r + 3) % 4) c := by
  rw [mixCell, two_gmul, three_gmul]

/-- Settles O52: each transformation is an `ofCells`, and MixColumns' `xtime` forms are products by
02 and 03. -/
theorem roundTransformationsCellByCell : Obligations.RoundTransformationsCellByCell := by
  intro s rk n r c hr hc
  refine ⟨cell_ofCells _ hr hc, cell_ofCells _ hr hc, cell_ofCells _ hr hc, ?_⟩
  rw [mixColumns, cell_ofCells _ hr hc, mixCell_eq_gmul]

end Sys2Proof.Machine
end

section
/-!
The key schedule (40_aes_core.md R106, R108): `extendSchedule` keeps the words it is given and adds
one word at a time, each by the recurrence from the words before it.
-/
namespace Sys2Proof.Machine

theorem extendSchedule_succ (nk n : Nat) (w : List Word) :
    extendSchedule nk (n + 1) w = extendSchedule nk n (w ++ [nextScheduleWord nk w]) := by
  rw [extendSchedule, withValue_eq]

theorem extendSchedule_length (nk n : Nat) (w : List Word) :
    (extendSchedule nk n w).length = w.length + n := by
  induction n generalizing w with
  | zero => rfl
  | succ n ih =>
    rw [extendSchedule_succ, ih, List.length_append, List.length_singleton]
    omega

theorem getD_extendSchedule_of_lt (nk n : Nat) {w : List Word} {i : Nat} (h : i < w.length) :
    (extendSchedule nk n w).getD i 0 = w.getD i 0 := by
  induction n generalizing w with
  | zero => rfl
  | succ n ih =>
    have hlonger : i < (w ++ [nextScheduleWord nk w]).length := by
      rw [List.length_append]
      omega
    rw [extendSchedule_succ, ih hlonger, List.getD_append _ _ _ _ h]

/-- The first added word, stated of the whole schedule: the words before it are not changed. -/
theorem getD_extendSchedule_length {nk : Nat} (n : Nat) {w : List Word} (hnk : 0 < nk)
    (hw : 0 < w.length) :
    (extendSchedule nk (n + 1) w).getD w.length 0 =
      (extendSchedule nk (n + 1) w).getD (w.length - nk) 0 ^^^
        scheduleTemp nk w.length ((extendSchedule nk (n + 1) w).getD (w.length - 1) 0) := by
  rw [getD_extendSchedule_of_lt nk _ (by omega : w.length - nk < w.length),
    getD_extendSchedule_of_lt nk _ (by omega : w.length - 1 < w.length), extendSchedule_succ,
    getD_extendSchedule_of_lt nk n (by simp), List.getD_append_right _ _ _ _ le_rfl, Nat.sub_self]
  rfl

theorem getD_extendSchedule_recurrence {nk n : Nat} {w : List Word} {i : Nat} (hnk : 0 < nk)
    (hw : 0 < w.length) (hi : w.length ≤ i) (hn : i < w.length + n) :
    (extendSchedule nk n w).getD i 0 = (extendSchedule nk n w).getD (i - nk) 0 ^^^
      scheduleTemp nk i ((extendSchedule nk n w).getD (i - 1) 0) := by
  induction n generalizing w with
  | zero => omega
  | succ n ih =>
    obtain rfl | hlt := hi.eq_or_lt
    · exact getD_extendSchedule_length n hnk hw
    · rw [extendSchedule_succ]
      exact ih (by simp) (by simpa using hlt) (by simpa using by omega)

@[simp] theorem keyWords_length (nk : Nat) (key : List Byte) : (keyWords nk key).length = nk := by
  simp [keyWords]

theorem getD_keyWords {nk : Nat} (key : List Byte) {i : Nat} (h : i < nk) :
    (keyWords nk key).getD i 0 = wordOfBytes (key.getD (4 * i) 0) (key.getD (4 * i + 1) 0)
      (key.getD (4 * i + 2) 0) (key.getD (4 * i + 3) 0) := by
  simp [keyWords, List.getD, h]

theorem keyExpansion_length (key : List Byte) :
    (keyExpansion key).length = 4 * (nrOf key.length + 1) := by
  rw [keyExpansion, extendSchedule_length, keyWords_length, nrOf]
  omega

/-- Settles O51, by induction on the number of added words (`getD_extendSchedule_recurrence`). -/
theorem keyExpansionRecurrence : Obligations.KeyExpansionRecurrence := by
  intro key hkey nk w
  have hnk : 0 < nk := by
    have hlen : 16 ≤ key.length := by
      simp only [List.mem_cons, List.not_mem_nil, or_false] at hkey
      omega
    omega
  refine ⟨keyExpansion_length key, fun i hi => ?_, fun i hi hlt => ?_⟩
  · exact (getD_extendSchedule_of_lt nk _ (by rwa [keyWords_length])).trans (getD_keyWords key hi)
  · apply getD_extendSchedule_recurrence (w := keyWords nk key) hnk <;> rw [keyWords_length]
    · exact hnk
    · exact hi
    · exact hlt.trans_le le_add_tsub

end Sys2Proof.Machine
end

section
/-!
CONSTRUCT, SET_IV and IV padding (41_construct_setiv.md R143-R154). Each way a command can answer is
said once of its function on one instance; `exec_of_commandOn` carries it to the state.
-/
namespace Sys2Proof.Machine

theorem keyLengthLegal_eq_true_iff_mem {n : Nat} :
    keyLengthLegal n = true ↔ n ∈ [16, 24, 32] := by
  simp [keyLengthLegal_iff]

theorem ne_rollingPerUnit_iff {pers : Persistence} :
    pers ≠ .rollingPerUnit ↔ pers = .persistAcrossCalls := by
  cases pers <;> decide

theorem pkcs5_or_cipherTextStealing_iff {pad : Padding} :
    pad = .pkcs5 ∨ pad = .cipherTextStealing ↔ pad ≠ .none := by
  cases pad <;> decide

/-- The checks of R145 in the words of its table. -/
theorem constructCheck_eq (eng : Engine) (pad : Padding) (pers : Persistence) (key iv : List Byte) :
    constructCheck eng pad pers key.length iv.length =
      if key.length ∉ [16, 24, 32] then some .keyLength
      else if eng = .ctr ∧ pad ≠ .none then some .ctrPadding
      else if eng = .ctr ∧ pers = .persistAcrossCalls then some .ctrPersist
      else if eng = .cbc ∧ pad ≠ .none ∧ pers = .persistAcrossCalls then some .padPersist
      else if iv = [] then some .ivEmpty
      else if 16 < iv.length then some .ivTooLong
      else none := by
  simp only [constructCheck, ivCheck, Bool.not_eq_true', Bool.eq_false_iff, ne_rollingPerUnit_iff,
    pkcs5_or_cipherTextStealing_iff, ne_eq, keyLengthLegal_eq_true_iff_mem, List.length_eq_zero_iff]

theorem constructOn_of_constructCheck_eq_none {eng : Engine} {pad : Padding} {pers : Persistence}
    {key iv : List Byte} (h : constructCheck eng pad pers key.length iv.length = none) :
    constructOn eng pad pers key iv = .ok (respondOk [], constructed eng pad pers key iv) := by
  rw [constructOn, h, setIvCore_configure]

theorem constructOn_of_constructCheck_eq_some {eng : Engine} {pad : Padding} {pers : Persistence}
    {key iv : List Byte} {e : CommandError}
    (h : constructCheck eng pad pers key.length iv.length = some e) :
    constructOn eng pad pers key iv = .ok (raise e, Instance.reset) := by
  rw [constructOn, h]

theorem setIvOn_of_ivCheck_eq_some {iv : List Byte} {x : Instance} {e : CommandError}
    (hc : x.configured = true) (h : ivCheck iv.length = some e) :
    setIvOn iv x = .ok (raise e, invalidateIv x) := by
  rw [setIvOn, if_pos hc, h]

theorem blockBytes_pad16 {iv : List Byte} (h : iv.length ≤ 16) :
    blockBytes (pad16 iv) = iv ++ List.replicate (16 - iv.length) 0 := by
  apply blockBytes_blockOfBytes
  rw [List.length_append, List.length_replicate]
  omega

/-- Settles O12: legal operands pass the checks, and `constructed` holds the registers of R148. -/
theorem constructTakesTheConfiguration : Obligations.ConstructTakesTheConfiguration := by
  intro s eng pad pers key iv he hl hk hmin hmax
  have hcheck : constructCheck eng pad pers key.length iv.length = none :=
    constructCheck_eq_none.mpr ⟨keyLengthLegal_eq_true_iff_mem.mpr hk, hl, hmin, hmax⟩
  refine ⟨constructed eng pad pers key iv,
    exec_of_commandOn he (constructOn_of_constructCheck_eq_none hcheck), ?_⟩
  cases eng <;> simp [constructed, configure, Instance.reset, nkOf, nrOf]

/-- Settles O14: the checks in the table's words (`constructCheck_eq`), branch by branch. -/
theorem constructFailsOnTheFirstCheck : Obligations.ConstructFailsOnTheFirstCheck := by
  intro s eng pad pers key iv he fails
  have fails_of_check {e} (h : constructCheck eng pad pers key.length iv.length = some e) :
      fails (errorStatus e) :=
    exec_of_commandOn he (constructOn_of_constructCheck_eq_some h)
  have hcheck := constructCheck_eq eng pad pers key iv
  split_ifs at hcheck ⊢
  -- A failing branch names its cause, which leaves the branch where every check passes.
  any_goals exact fails_of_check hcheck
  exact (constructCheck_eq_none.mp hcheck).2

/-- Settles O15: the padded IV has 16 bytes, and 16 bytes are the bytes of their block. -/
theorem shortIvsArePaddedWithZeros : Obligations.ShortIvsArePaddedWithZeros := by
  intro iv _ hmax
  refine ⟨blockBytes_pad16 hmax, fun hfull => ?_, blockBytes_pad16 (by decide)⟩
  rw [blockBytes_pad16 hmax, hfull, Nat.sub_self, List.replicate_zero, List.append_nil]

/-- Settles O17: the length gives the cause, and `invalidateIv` is the effect for both causes. -/
theorem setIvFailureInvalidatesTheIv : Obligations.SetIvFailureInvalidatesTheIv := by
  intro s iv x he hc hbad
  have fails_of_check {e} (h : ivCheck iv.length = some e) :
      exec (.setIv iv) s = .next (s.after ⟨errorStatus e, 0, []⟩ (invalidateIv x)) :=
    exec_of_commandOn he (setIvOn_of_ivCheck_eq_some hc h)
  obtain hempty | hlong := hbad
  · rw [if_pos hempty]
    exact fails_of_check (e := .ivEmpty) (if_pos hempty)
  · have hne : iv.length ≠ 0 := by omega
    rw [if_neg hne]
    exact fails_of_check (e := .ivTooLong) ((if_neg hne).trans (if_pos hlong))

end Sys2Proof.Machine
end

section
/-!
The bytes of a counter block (42_ctr_engine.md R170-R172). The first eight are the bytes of `nonceOf`
and the last eight those of `counterOf`; so R170's sum of weighted bytes is the number `counterOf`
holds, and `Inc64` is read off its two halves (`nonceOf_inc64`, `counterOf_inc64`).
-/
namespace Sys2Proof.Machine

theorem blockByte_eq_extractLsb'_nonceOf (b : Block) {i : Nat} (h : i < 8) :
    blockByte b i = (nonceOf b).extractLsb' (8 * (7 - i)) 8 := by
  calc blockByte b i = blockByte (nonceOf b ++ counterOf b) i := by rw [nonceOf_append_counterOf]
    _ = (nonceOf b).extractLsb' (8 * (15 - i) - 64) 8 :=
      BitVec.extractLsb'_append_eq_of_le (by omega)
    _ = (nonceOf b).extractLsb' (8 * (7 - i)) 8 := by congr 1; omega

theorem blockByte_eight_add (b : Block) {i : Nat} (h : i < 8) :
    blockByte b (8 + i) = (counterOf b).extractLsb' (8 * (7 - i)) 8 := by
  rw [counterOf, BitVec.extractLsb'_extractLsb'_of_le (by omega), blockByte]
  congr 1
  omega

theorem toNat_blockByte_eight_add (b : Block) {i : Nat} (h : i < 8) :
    (blockByte b (8 + i)).toNat = (counterOf b).toNat / 256 ^ (7 - i) % 256 := by
  rw [blockByte_eight_add b h, BitVec.extractLsb'_toNat, Nat.shiftRight_eq_div_pow, Nat.pow_mul]

/-- The `n` low base-256 digits of `v`, most significant first, weigh `v mod 256^n`. -/
theorem sum_bigEndian_digits (v n : Nat) :
    ((List.range n).map fun i => v / 256 ^ (n - 1 - i) % 256 * 256 ^ (n - 1 - i)).sum =
      v % 256 ^ n := by
  induction n with
  | zero => exact (Nat.mod_one v).symm
  | succ n ih =>
    have htail : ((List.range n).map fun i =>
        v / 256 ^ (n - (i + 1)) % 256 * 256 ^ (n - (i + 1))).sum = v % 256 ^ n := by
      simpa only [Nat.sub_sub, Nat.add_comm] using ih
    rw [List.range_succ_eq_map, List.map_cons, List.sum_cons, List.map_map, Nat.mod_pow_succ]
    simp only [Function.comp_def, Nat.succ_eq_add_one, Nat.add_sub_cancel, Nat.sub_zero, htail]
    ring

/-- `ctr(CB)` of R170 is the number `counterOf` holds. -/
theorem sum_counterBytes_eq_toNat_counterOf (b : Block) :
    ((List.range 8).map fun i => (blockByte b (8 + i)).toNat * 256 ^ (7 - i)).sum =
      (counterOf b).toNat := by
  have hdigits : ((List.range 8).map fun i => (blockByte b (8 + i)).toNat * 256 ^ (7 - i)) =
      (List.range 8).map fun i => (counterOf b).toNat / 256 ^ (7 - i) % 256 * 256 ^ (7 - i) :=
    List.map_congr_left fun i hi => by rw [toNat_blockByte_eight_add b (List.mem_range.mp hi)]
  rw [hdigits]
  exact (sum_bigEndian_digits _ 8).trans (Nat.mod_eq_of_lt (counterOf b).isLt)

/-- Settles O26: the counter half of `inc64` is the successor, the nonce half stays. -/
theorem incrementOfTheCounterBlock : Obligations.IncrementOfTheCounterBlock := by
  intro cb ctr
  refine ⟨?_, fun i hi => ?_⟩
  · calc ctr (inc64 cb) = (counterOf (inc64 cb)).toNat := sum_counterBytes_eq_toNat_counterOf _
      _ = ((counterOf cb).toNat + 1) % 2 ^ 64 := by rw [counterOf_inc64, BitVec.toNat_add]; rfl
      _ = (ctr cb + 1) % 2 ^ 64 := by rw [← sum_counterBytes_eq_toNat_counterOf]
  · rw [blockByte_eq_extractLsb'_nonceOf _ hi, blockByte_eq_extractLsb'_nonceOf _ hi, nonceOf_inc64]

end Sys2Proof.Machine
end

section
/-!
CRYPT on a CTR instance (42_ctr_engine.md R175, R181).
-/
namespace Sys2Proof.Machine

theorem cryptOn_of_eng_eq_ctr {x : Instance} (hc : x.configured = true) (hv : x.ivValid = true)
    (heng : x.eng = some .ctr) (cap : BitVec 64) (data : List Byte) :
    cryptOn cap data x = cryptCtr cap data x := by
  rw [cryptOn, if_pos hc, if_pos hv, heng, need_some]

theorem cryptCtr_nil (cap : BitVec 64) (x : Instance) : cryptCtr cap [] x = .ok (respondOk [], x) := by
  rw [cryptCtr, List.length_nil, if_neg (Nat.not_lt_zero _), ctrStream_nil]

/-- Settles O31: no capacity is below an empty message, and an empty stream runs no byte step. -/
theorem emptyCtrCryptChangesNothing : Obligations.EmptyCtrCryptChangesNothing := by
  intro s cap x he hc hv heng
  exact exec_of_commandOn he ((cryptOn_of_eng_eq_ctr hc hv heng cap []).trans (cryptCtr_nil cap x))

end Sys2Proof.Machine
end

section
/-!
CRYPT on a CBC instance (43_cbc_engine.md R203-R212). A message is its complete blocks, chained from
where the call starts (`cbcMessage_eq_finishCbc`), and a tail of fewer than 16 bytes, which each
padding policy finishes in its own way (`finishCbc_none`, `finishCbc_pkcs5`,
`finishCbc_cipherTextStealing`).
-/
namespace Sys2Proof.Machine

/-! ### Runs of blocks -/

theorem blocksBytes_concat (bs : List Block) (b : Block) :
    blocksBytes (bs ++ [b]) = blocksBytes bs ++ blockBytes b := by
  rw [blocksBytes, List.flatMap_append, List.flatMap_singleton, blocksBytes]

theorem standardCbc_concat (rk : List Word) (nr : BitVec 4) (prev : Block) (ps : List Block)
    (p : Block) :
    standardCbc rk nr prev (ps ++ [p]) = standardCbc rk nr prev ps ++
      [aesEncrypt rk nr.toNat (p ^^^ (standardCbc rk nr prev ps).getLast?.getD prev)] :=
  standardCbc_append rk nr prev ps [p]

theorem blocksOf_take {n : Nat} {bytes : List Byte} (h : 16 * n ≤ bytes.length) :
    blocksOf n (bytes.take (16 * n)) = blocksOf n bytes := by
  have happend := blocksOf_append n 0 _ (bytes.drop (16 * n)) (List.length_take_of_le h)
  rw [List.take_append_drop, Nat.add_zero, blocksOf, List.append_nil] at happend
  exact happend.symm

theorem blocksOf_one {bytes : List Byte} (h : bytes.length = 16) :
    blocksOf 1 bytes = [blockOfBytes bytes] := by
  rw [blocksOf, blocksOf, List.take_of_length_le h.le]

theorem length_drop_completeBlocks (data : List Byte) :
    (data.drop (16 * (data.length / 16))).length = data.length % 16 := by
  rw [List.length_drop]
  omega

/-- Padding the tail to a block appends that block to the complete ones. -/
theorem blocksOf_append_padding {data padding : List Byte}
    (h : data.length % 16 + padding.length = 16) :
    blocksOf (data.length / 16 + 1) (data ++ padding) = blocksOf (data.length / 16) data ++
      [blockOfBytes (data.drop (16 * (data.length / 16)) ++ padding)] := by
  have htail : (data.drop (16 * (data.length / 16)) ++ padding).length = 16 := by
    rw [List.length_append, length_drop_completeBlocks, h]
  generalize hn : data.length / 16 = n at *
  have hle : 16 * n ≤ data.length := by omega
  calc blocksOf (n + 1) (data ++ padding)
      = blocksOf (n + 1) (data.take (16 * n) ++ (data.drop (16 * n) ++ padding)) := by
        rw [← List.append_assoc, List.take_append_drop]
    _ = blocksOf n (data.take (16 * n)) ++ blocksOf 1 (data.drop (16 * n) ++ padding) :=
        blocksOf_append n 1 _ _ (List.length_take_of_le hle)
    _ = blocksOf n data ++ [blockOfBytes (data.drop (16 * n) ++ padding)] := by
        rw [blocksOf_take hle, blocksOf_one htail]

/-! ### The padding policies -/

theorem finishCbc_none (region tail : List Byte) (x : Instance) :
    finishCbc .none region tail x = .ok (respondOk (region ++ tail), x) := by
  by_cases h : tail.length = 0
  · rw [finishCbc, if_pos ⟨h, by decide⟩, List.length_eq_zero_iff.mp h, List.append_nil]
  · rw [finishCbc, if_neg fun hdone => h hdone.1]
    rfl

theorem finishCbc_of_tail_nil {pad : Padding} (h : pad ≠ .pkcs5) (region : List Byte) (x : Instance) :
    finishCbc pad region [] x = .ok (respondOk region, x) :=
  if_pos ⟨rfl, h⟩

section
variable {x : Instance} {rk : List Word} {nr : BitVec 4} {cv : Block}
  (hrk : x.rk = some rk) (hnr : x.nr = some nr) (hcv : x.cv = some cv)
include hrk hnr hcv

theorem finishCbc_pkcs5 (region tail : List Byte) :
    finishCbc .pkcs5 region tail x =
      .ok (respondOk (region ++ blockBytes (aesEncrypt rk nr.toNat (pkcs5Block tail ^^^ cv))),
        { x with cv := some (aesEncrypt rk nr.toNat (pkcs5Block tail ^^^ cv)) }) := by
  rw [finishCbc, if_neg fun hdone => hdone.2 rfl]
  simp only [padBlock, cbcBlock_ok hrk hnr hcv]

theorem finishCbc_cipherTextStealing (region : List Byte) {tail : List Byte} (h : tail.length ≠ 0) :
    finishCbc .cipherTextStealing region tail x =
      .ok (respondOk (stealOutput region (aesEncrypt rk nr.toNat (pad16 tail ^^^ cv)) tail.length),
        { x with cv := some (aesEncrypt rk nr.toNat (pad16 tail ^^^ cv)) }) := by
  rw [finishCbc, if_neg fun hdone => h hdone.1]
  simp only [steal, cbcBlock_ok hrk hnr hcv]

end

theorem stealOutput_append_blockBytes (region : List Byte) (l e : Block) (res : Nat) :
    stealOutput (region ++ blockBytes l) e res =
      region ++ blockBytes e ++ (blockBytes l).take res := by
  have hlen : (region ++ blockBytes l).length - 16 = region.length := by simp
  rw [stealOutput, hlen, List.take_left, List.drop_left]

theorem stealOutput_blocksBytes {cs : List Block} (h : cs ≠ []) (e start : Block) (res : Nat) :
    stealOutput (blocksBytes cs) e res =
      blocksBytes cs.dropLast ++ blockBytes e ++ (blockBytes (cs.getLast?.getD start)).take res := by
  have hsplit : blocksBytes cs = blocksBytes cs.dropLast ++ blockBytes (cs.getLast h) := by
    conv_lhs => rw [← List.dropLast_append_getLast h]
    rw [blocksBytes_concat]
  rw [hsplit, stealOutput_append_blockBytes, List.getLast?_eq_some_getLast h, Option.getD_some]

/-! ### A whole message -/

/-- A message that is not passed through by R208: its complete blocks are standard CBC from `CV`, and
the padding policy goes on from their last block. -/
theorem cbcMessage_eq_finishCbc {x : Instance} {rk : List Word} {nr : BitVec 4} {cv : Block}
    (hrk : x.rk = some rk) (hnr : x.nr = some nr) (hcv : x.cv = some cv) {pad : Padding}
    {data : List Byte} (h : pad = .cipherTextStealing → 16 ≤ data.length) :
    let cs := standardCbc rk nr cv (blocksOf (data.length / 16) data)
    cbcMessage pad data x =
      finishCbc pad (blocksBytes cs) (data.drop (16 * (data.length / 16)))
        { x with cv := some (cs.getLast?.getD cv) } := by
  have hrun : ¬(completeBytes data.length = 0 ∧ pad = .cipherTextStealing) := by
    rintro ⟨hzero, hpad⟩
    have := h hpad
    rw [completeBytes_eq] at hzero
    omega
  rw [cbcMessage, if_neg hrun]
  simp only [completeBytes_eq, Nat.mul_div_cancel_left _ (by decide : 0 < 16),
    cbcRegion_ok hrk hnr hcv]

theorem cbcMessage_cipherTextStealing_of_lt {data : List Byte} (h : data.length < 16)
    (x : Instance) : cbcMessage .cipherTextStealing data x = .ok (respondOk data, x) :=
  if_pos ⟨by rw [completeBytes_eq]; omega, rfl⟩

section
variable {s : State} {cap : BitVec 64} {data : List Byte} {pad : Padding} {rk : List Word}
  {nr : BitVec 4} {start : Block} {r : Response} {y : Instance}
  (he : instanceExists s.sel = true) (hready : (s.inst s.sel).CbcReady pad rk nr start)
  (hcap : requiredLength pad data.length ≤ cap.toNat)
include he hready hcap

theorem exec_crypt_of_cbcMessage
    (hmsg : cbcMessage pad data { s.inst s.sel with cv := some start } = .ok (r, y)) :
    exec (.crypt cap data) s = .next (s.after r y) :=
  exec_of_commandOn he <|
    (cryptOn_cbcReady hready cap data).trans ((if_neg hcap.not_gt).trans hmsg)

/-- CRYPT on a ready CBC instance with room for the output: what is left to each padding policy. -/
theorem exec_crypt_of_finishCbc (hlen : pad = .cipherTextStealing → 16 ≤ data.length) :
    let cs := standardCbc rk nr start (blocksOf (data.length / 16) data)
    finishCbc pad (blocksBytes cs) (data.drop (16 * (data.length / 16)))
      { s.inst s.sel with cv := some (cs.getLast?.getD start) } = .ok (r, y) →
    exec (.crypt cap data) s = .next (s.after r y) := by
  intro cs hfinish
  have ⟨_, _, _, _, hrk, hnr, _⟩ := hready
  exact exec_crypt_of_cbcMessage he hready hcap
    ((cbcMessage_eq_finishCbc (x := { s.inst s.sel with cv := some start }) hrk hnr rfl hlen).trans
      hfinish)

end

/-! ### The statements -/

/-- Settles O32: after the complete blocks, `finishCbc_none` appends the tail and keeps `CV`. -/
theorem cbcWithoutPadding : Obligations.CbcWithoutPadding := by
  intro s cap data rk nr start x n cs he hready hcap
  exact exec_crypt_of_finishCbc he hready hcap nofun (finishCbc_none _ _ _)

/-- Settles O33: the padded tail is the last block of the padded data (`blocksOf_append_padding`), and
chaining it from the last ciphertext block is chaining the whole (`standardCbc_concat`). -/
theorem cbcWithPkcs5IsStandardCbcOfThePaddedData :
    Obligations.CbcWithPkcs5IsStandardCbcOfThePaddedData := by
  intro s cap data rk nr start x npad padded cs he hready hcap
  have ⟨_, _, _, _, hrk, hnr, _⟩ := hready
  have hpadded : blocksOf (data.length / 16 + 1) padded = blocksOf (data.length / 16) data ++
      [pkcs5Block (data.drop (16 * (data.length / 16)))] := by
    rw [pkcs5Block, length_drop_completeBlocks]
    exact blocksOf_append_padding (by rw [List.length_replicate]; omega)
  apply exec_crypt_of_finishCbc he hready hcap nofun
  simp only [cs, hpadded, standardCbc_concat, blocksBytes_concat, List.getLast?_concat]
  exact finishCbc_pkcs5 (x := { x with cv := some _ }) hrk hnr rfl _ _

/-- Settles O34: an empty tail ends the message after its complete blocks; another one is encrypted
from the last of them, and `stealOutput_blocksBytes` says where the result goes. -/
theorem ciphertextStealing : Obligations.CiphertextStealing := by
  intro s cap data rk nr start x n res cs last e he hready hlen hcap
  have ⟨_, _, _, _, hrk, hnr, _⟩ := hready
  have htail : (data.drop (16 * n)).length = res := length_drop_completeBlocks data
  split_ifs with hres
  · have hnil : data.drop (16 * n) = [] := List.length_eq_zero_iff.mp (htail.trans hres)
    apply exec_crypt_of_finishCbc he hready hcap fun _ => hlen
    rw [hnil]
    exact finishCbc_of_tail_nil (by decide) _ _
  · have hne : cs ≠ [] := by
      rw [← List.length_pos_iff, standardCbc_length, blocksOf_length]
      omega
    have hfinish := finishCbc_cipherTextStealing (x := { x with cv := some last }) hrk hnr rfl
      (blocksBytes cs) (htail.trans_ne hres)
    rw [stealOutput_blocksBytes hne _ start, pad16, htail] at hfinish
    exact exec_crypt_of_finishCbc he hready hcap (fun _ => hlen) hfinish

/-- Settles O35: no complete block, so the message is passed through with `CV` at the start. -/
theorem shortCiphertextStealingPassesThrough : Obligations.ShortCiphertextStealingPassesThrough := by
  intro s cap data rk nr start x he hready hlen hcap
  exact exec_crypt_of_cbcMessage he hready hcap (cbcMessage_cipherTextStealing_of_lt hlen _)

end Sys2Proof.Machine
end

section
/-!
Determinism of a delivered record (60_exceptions.md R279). The record alone fixes the function that is
performed on the instance it is issued to (`step_command_eq_perform_or_refused`), and `perform` passes
that function nothing but the registers of this instance (`perform_next_of_inst_eq`).
-/
namespace Sys2Proof.Machine

theorem step_of_decode_eq_ok {s : State} {k : Nat} {record rest : List Byte} {queue : List HostEvent}
    {i : Instr} (hin : s.input = .command k record :: queue) (hd : decode record = .ok (i, rest)) :
    step s = exec i (s.issue k queue) := by
  simp only [step, hin, hd]

theorem step_of_decode_eq_error {s : State} {k : Nat} {record : List Byte} {queue : List HostEvent}
    {e : DecodeError} (hin : s.input = .command k record :: queue) (hd : decode record = .error e) :
    step s = rejectRecord e (s.issue k queue) := by
  simp only [step, hin, hd]

theorem rejectRecord_of_illegalCause_eq_some {e : DecodeError} {c : CommandError}
    (h : illegalCause e = some c) (s : State) :
    rejectRecord e s = perform s fun x => .ok (raise c, x) := by
  rw [rejectRecord, h]

theorem rejectRecord_of_illegalCause_eq_none {e : DecodeError} (h : illegalCause e = none)
    (s : State) : rejectRecord e s = .refused .incompleteRecord := by
  rw [rejectRecord, h]

/-- A record either performs one and the same function in every state and on every instance, or is not
whole and is refused everywhere. -/
theorem step_command_eq_perform_or_refused (record : List Byte) :
    (∃ f, ∀ {s : State} {k : Nat} {queue : List HostEvent},
      s.input = .command k record :: queue → step s = perform (s.issue k queue) f) ∨
    (∀ {s : State} {k : Nat} {queue : List HostEvent},
      s.input = .command k record :: queue → step s = .refused .incompleteRecord) := by
  cases hd : decode record with
  | ok p =>
    exact .inl ⟨commandOn p.1, fun hin => (step_of_decode_eq_ok hin hd).trans (exec_eq_perform _ _)⟩
  | error e =>
    cases hc : illegalCause e with
    | some c =>
      exact .inl ⟨fun x => .ok (raise c, x), fun hin =>
        (step_of_decode_eq_error hin hd).trans (rejectRecord_of_illegalCause_eq_some hc _)⟩
    | none =>
      exact .inr fun hin =>
        (step_of_decode_eq_error hin hd).trans (rejectRecord_of_illegalCause_eq_none hc _)

/-- Where the selected instances hold the same registers, what answers on one answers alike on the
other. -/
theorem perform_next_of_inst_eq {s s' t : State} {f : Instance → Except Fault (Response × Instance)}
    (he' : instanceExists s'.sel = true) (hinst : s.inst s.sel = s'.inst s'.sel)
    (h : perform s f = .next t) :
    ∃ r x, t = s.after r x ∧ perform s' f = .next (s'.after r x) := by
  obtain ⟨-, r, x, hf, rfl⟩ := perform_eq_next.mp h
  exact ⟨r, x, rfl, perform_ok he' (hinst ▸ hf)⟩

/-- Settles O23: both steps perform the record's one function, on equal registers. -/
theorem commandsAreDeterminedByTheirInstance : Obligations.CommandsAreDeterminedByTheirInstance := by
  intro s s' t k k' record queue queue' hin hin' he' hinst hstep
  obtain ⟨f, hf⟩ | hrefused := step_command_eq_perform_or_refused record
  · rw [hf hin] at hstep
    rw [hf hin']
    exact perform_next_of_inst_eq (s' := s'.issue k' queue') he' hinst hstep
  · rw [hrefused hin] at hstep
    cases hstep

end Sys2Proof.Machine
end

section
/-!
Records as bytes (20_memory.md R55, 30_encoding.md R70): a number and its bytes, least significant
first, determine each other, and what `takeBytes` and `takeWord` read is the head of the record.
-/
namespace Sys2Proof

@[simp] theorem leBytes_length (n v : Nat) : (leBytes n v).length = n := by
  induction n generalizing v with
  | zero => rfl
  | succ n ih => rw [leBytes, List.length_cons, ih]

theorem ofLE_leBytes (n v : Nat) : ofLE (leBytes n v) = v % 256 ^ n := by
  induction n generalizing v with
  | zero => exact (Nat.mod_one v).symm
  | succ n ih =>
    rw [leBytes, ofLE, ih, BitVec.toNat_ofNat, Nat.pow_succ' (m := 256)]
    exact Nat.mod_mul.symm

theorem leBytes_ofLE (bytes : List Byte) : leBytes bytes.length (ofLE bytes) = bytes := by
  induction bytes with
  | nil => rfl
  | cons b rest ih =>
    have hb : b.toNat < 256 := b.isLt
    have hhead : BitVec.ofNat 8 (b.toNat + 256 * ofLE rest) = b :=
      BitVec.eq_of_toNat_eq (by rw [BitVec.toNat_ofNat]; omega)
    have htail : (b.toNat + 256 * ofLE rest) / 256 = ofLE rest := by omega
    rw [ofLE, List.length_cons, leBytes, hhead, htail, ih]

theorem ofNat_ofLE_leBytes {n : Nat} (w : BitVec (8 * n)) :
    BitVec.ofNat (8 * n) (ofLE (leBytes n w.toNat)) = w := by
  rw [ofLE_leBytes, show 256 ^ n = 2 ^ (8 * n) from (Nat.pow_mul 2 8 n).symm,
    Nat.mod_eq_of_lt w.isLt, BitVec.ofNat_toNat, BitVec.setWidth_eq]

theorem ofLE_lt (bytes : List Byte) : ofLE bytes < 256 ^ bytes.length := by
  rw [← leBytes_ofLE bytes, ofLE_leBytes, leBytes_length]
  exact Nat.mod_lt _ (Nat.pow_pos (by decide))

theorem takeBytes_append (a b : List Byte) : takeBytes a.length (a ++ b) = some (a, b) := by
  rw [takeBytes, if_pos (by simp), List.take_left, List.drop_left]

/-- Reading `n` bytes fails on a shorter record, and splits any other one. -/
theorem takeBytes_cases (n : Nat) (bytes : List Byte) :
    (bytes.length < n ∧ takeBytes n bytes = none) ∨
    ∃ a b, a.length = n ∧ bytes = a ++ b ∧ takeBytes n bytes = some (a, b) := by
  by_cases h : n ≤ bytes.length
  · exact .inr ⟨_, _, List.length_take_of_le h, (List.take_append_drop n bytes).symm, if_pos h⟩
  · exact .inl ⟨by omega, if_neg h⟩

theorem takeWord_leBytes_append (w : Word) (rest : List Byte) :
    takeWord (leBytes 4 w.toNat ++ rest) = some (w, rest) := by
  have hread := takeBytes_append (leBytes 4 w.toNat) rest
  rw [leBytes_length] at hread
  have hword : BitVec.ofNat 32 (ofLE (leBytes 4 w.toNat)) = w := ofNat_ofLE_leBytes (n := 4) w
  simp only [takeWord, hread, hword]

theorem leBytes_append_of_takeWord_eq_some {bytes rest : List Byte} {w : Word}
    (h : takeWord bytes = some (w, rest)) : leBytes 4 w.toNat ++ rest = bytes := by
  obtain ⟨_, hnone⟩ | ⟨a, b, ha, rfl, hsome⟩ := takeBytes_cases 4 bytes
  · rw [takeWord, hnone] at h
    cases h
  · rw [takeWord, hsome] at h
    cases h
    have hlt : ofLE a < 2 ^ 32 := by simpa [ha] using ofLE_lt a
    rw [BitVec.toNat_ofNat, Nat.mod_eq_of_lt hlt, ← ha, leBytes_ofLE]

end Sys2Proof
end

section
/-!
The decoder and the encoder (30_encoding.md R70-R87). What each format's decoder can answer is said
once (`decodeConstruct_cases`, `decodeSetIv_cases`, `decodeCrypt_cases`): rejected by a check,
incomplete, or the command whose bytes stand at the head of the payload. The fields of a command
word and the word determine each other.
-/
namespace Sys2Proof

/-! ### Command words and their fields -/

theorem word_eq_fields_construct (cw : Word) :
    cw = cwHigh cw ++ cwIvlen cw ++ cwKlen cw ++ cwPers cw ++ cwPad cw ++ cwEng cw ++ cwOp cw := by
  unfold cwHigh cwIvlen cwKlen cwPers cwPad cwEng cwOp
  repeat rw [BitVec.extractLsb'_append_extractLsb'_eq_extractLsb' (by omega)]
  exact BitVec.extractLsb'_eq_self.symm

theorem word_eq_fields_setIv (cw : Word) :
    cw = cwHigh cw ++ cwIvlen cw ++ cwMid cw ++ cwOp cw := by
  unfold cwHigh cwIvlen cwMid cwOp
  repeat rw [BitVec.extractLsb'_append_extractLsb'_eq_extractLsb' (by omega)]
  exact BitVec.extractLsb'_eq_self.symm

theorem word_eq_fields_crypt (cw : Word) : cw = cwAboveOp cw ++ cwOp cw := by
  unfold cwAboveOp cwOp
  rw [BitVec.extractLsb'_append_extractLsb'_eq_extractLsb' (by omega)]
  exact BitVec.extractLsb'_eq_self.symm


/-- Each field of a format C command word is the code of its operand. -/
theorem fields_commandWord_construct (eng : Engine) (pad : Padding) (pers : Persistence)
    (key iv : List Byte) :
    let cw := commandWord (.construct eng pad pers key iv)
    cwEng cw = engineBits eng ∧ cwPad cw = paddingBits pad ∧ cwPers cw = persistenceBits pers ∧
      cwKlen cw = BitVec.ofNat 6 key.length ∧ cwIvlen cw = BitVec.ofNat 6 iv.length := by
  refine ⟨?_, ?_, ?_, ?_, ?_⟩ <;>
    simp (disch := omega) only [commandWord, cwEng, cwPad, cwPers, cwKlen, cwIvlen,
      BitVec.extractLsb'_append_eq_of_add_le, BitVec.extractLsb'_append_eq_of_le, Nat.reduceSub,
      BitVec.extractLsb'_eq_self]

theorem fields_commandWord_setIv (iv : List Byte) :
    cwMid (commandWord (.setIv iv)) = 0 ∧
      cwIvlen (commandWord (.setIv iv)) = BitVec.ofNat 6 iv.length := by
  refine ⟨?_, ?_⟩ <;>
    simp (disch := omega) only [commandWord, cwMid, cwIvlen,
      BitVec.extractLsb'_append_eq_of_add_le, BitVec.extractLsb'_append_eq_of_le, Nat.reduceSub,
      BitVec.extractLsb'_eq_self]

/-! ### The enumerated fields (30_encoding.md R76) -/

theorem engineBits_engineOfBits (b : BitVec 1) : engineBits (engineOfBits b) = b := by
  revert b
  decide

theorem engineOfBits_engineBits (eng : Engine) : engineOfBits (engineBits eng) = eng := by
  cases eng <;> rfl

theorem persistenceBits_persistenceOfBits (b : BitVec 1) :
    persistenceBits (persistenceOfBits b) = b := by
  revert b
  decide

theorem persistenceOfBits_persistenceBits (pers : Persistence) :
    persistenceOfBits (persistenceBits pers) = pers := by
  cases pers <;> rfl

theorem paddingOfBits_paddingBits (pad : Padding) : paddingOfBits (paddingBits pad) = some pad := by
  cases pad <;> rfl

theorem paddingBits_ne_three (pad : Padding) : paddingBits pad ≠ 3 := by
  cases pad <;> decide

theorem paddingBits_injective {pad pad' : Padding} (h : paddingBits pad = paddingBits pad') :
    pad = pad' := by
  rw [← Option.some_inj, ← paddingOfBits_paddingBits, h, paddingOfBits_paddingBits]

/-- Every code but 3 is the code of a scheme. -/
theorem paddingOfBits_cases (b : BitVec 2) :
    (b = 3 ∧ paddingOfBits b = none) ∨ ∃ pad, b = paddingBits pad ∧ paddingOfBits b = some pad := by
  by_cases h0 : b = 0
  · exact .inr ⟨.none, h0, by rw [h0]; rfl⟩
  by_cases h1 : b = 1
  · exact .inr ⟨.pkcs5, h1, by rw [h1]; rfl⟩
  by_cases h2 : b = 2
  · exact .inr ⟨.cipherTextStealing, h2, by rw [h2]; rfl⟩
  · have h3 : b = 3 := by bv_omega
    exact .inl ⟨h3, by rw [h3]; rfl⟩

/-! ### What the decoder can answer -/

theorem decodeConstruct_cases (cw : Word) (payload : List Byte) :
    (cwHigh cw ≠ 0 ∧ decodeConstruct cw payload = .error .reservedBits) ∨
    (cwHigh cw = 0 ∧ cwPad cw = 3 ∧ decodeConstruct cw payload = .error .reservedPad) ∨
    (cwHigh cw = 0 ∧ cwPad cw ≠ 3 ∧ payload.length < (cwKlen cw).toNat + (cwIvlen cw).toNat ∧
      decodeConstruct cw payload = .error .incomplete) ∨
    (cwHigh cw = 0 ∧ ∃ pad key iv rest, cwPad cw = paddingBits pad ∧
      key.length = (cwKlen cw).toNat ∧ iv.length = (cwIvlen cw).toNat ∧
      payload = key ++ (iv ++ rest) ∧
      decodeConstruct cw payload = .ok (.construct (engineOfBits (cwEng cw)) pad
        (persistenceOfBits (cwPers cw)) key iv, rest)) := by
  unfold decodeConstruct
  by_cases hhigh : cwHigh cw = 0
  · rw [if_neg (not_not_intro hhigh)]
    obtain ⟨h3, hnone⟩ | ⟨pad, hpad, hsome⟩ := paddingOfBits_cases (cwPad cw)
    · rw [hnone]
      exact .inr (.inl ⟨hhigh, h3, rfl⟩)
    · have hne : cwPad cw ≠ 3 := hpad ▸ paddingBits_ne_three pad
      rw [hsome]
      obtain ⟨hlt, hkey⟩ | ⟨key, afterKey, hklen, rfl, hkey⟩ :=
        takeBytes_cases (cwKlen cw).toNat payload
      · rw [hkey]
        exact .inr (.inr (.inl ⟨hhigh, hne, by omega, rfl⟩))
      · obtain ⟨hlt, hiv⟩ | ⟨iv, rest, hivlen, rfl, hiv⟩ :=
          takeBytes_cases (cwIvlen cw).toNat afterKey
        · simp only [hkey, hiv]
          exact .inr (.inr (.inl ⟨hhigh, hne, by rw [List.length_append]; omega, trivial⟩))
        · simp only [hkey, hiv]
          exact .inr (.inr (.inr ⟨hhigh, pad, key, iv, rest, hpad, hklen, hivlen, rfl, rfl⟩))
  · rw [if_pos hhigh]
    exact .inl ⟨hhigh, rfl⟩

theorem decodeSetIv_cases (cw : Word) (payload : List Byte) :
    ((cwMid cw ≠ 0 ∨ cwHigh cw ≠ 0) ∧ decodeSetIv cw payload = .error .reservedBits) ∨
    (cwMid cw = 0 ∧ cwHigh cw = 0 ∧ payload.length < (cwIvlen cw).toNat ∧
      decodeSetIv cw payload = .error .incomplete) ∨
    (cwMid cw = 0 ∧ cwHigh cw = 0 ∧ ∃ iv rest, iv.length = (cwIvlen cw).toNat ∧
      payload = iv ++ rest ∧ decodeSetIv cw payload = .ok (.setIv iv, rest)) := by
  unfold decodeSetIv
  by_cases hreserved : cwMid cw ≠ 0 ∨ cwHigh cw ≠ 0
  · rw [if_pos hreserved]
    exact .inl ⟨hreserved, rfl⟩
  · rw [if_neg hreserved]
    rw [not_or, not_not, not_not] at hreserved
    obtain ⟨hmid, hhigh⟩ := hreserved
    obtain ⟨hlt, hiv⟩ | ⟨iv, rest, hivlen, rfl, hiv⟩ := takeBytes_cases (cwIvlen cw).toNat payload
    · rw [hiv]
      exact .inr (.inl ⟨hmid, hhigh, hlt, rfl⟩)
    · rw [hiv]
      exact .inr (.inr ⟨hmid, hhigh, iv, rest, hivlen, rfl, rfl⟩)

theorem decodeCrypt_cases (cw : Word) (operands : List Byte) :
    (cwAboveOp cw ≠ 0 ∧ decodeCrypt cw operands = .error .reservedBits) ∨
    (cwAboveOp cw = 0 ∧ operands.length < 4 + 8 + ofLE (operands.take 4) ∧
      decodeCrypt cw operands = .error .incomplete) ∨
    (cwAboveOp cw = 0 ∧ ∃ len cap data rest, len.length = 4 ∧ cap.length = 8 ∧
      data.length = ofLE len ∧ operands = len ++ (cap ++ (data ++ rest)) ∧
      decodeCrypt cw operands = .ok (.crypt (BitVec.ofNat 64 (ofLE cap)) data, rest)) := by
  unfold decodeCrypt
  by_cases habove : cwAboveOp cw = 0
  · rw [if_neg (not_not_intro habove)]
    obtain ⟨hlt, hlen⟩ | ⟨len, afterLen, hlen4, rfl, hlen⟩ := takeBytes_cases 4 operands
    · rw [hlen]
      exact .inr (.inl ⟨habove, by omega, rfl⟩)
    · have htake : (len ++ afterLen).take 4 = len := by rw [← hlen4, List.take_left]
      simp only [hlen, htake, List.length_append, hlen4]
      obtain ⟨hlt, hcap⟩ | ⟨cap, payload, hcap8, rfl, hcap⟩ := takeBytes_cases 8 afterLen
      · rw [hcap]
        exact .inr (.inl ⟨habove, by omega, rfl⟩)
      · simp only [hcap, List.length_append, hcap8]
        obtain ⟨hlt, hdata⟩ | ⟨data, rest, hdatalen, rfl, hdata⟩ :=
          takeBytes_cases (ofLE len) payload
        · rw [hdata]
          exact .inr (.inl ⟨habove, by omega, rfl⟩)
        · rw [hdata]
          exact .inr (.inr ⟨habove, len, cap, data, rest, hlen4, hcap8, hdatalen, rfl, rfl⟩)
  · rw [if_pos habove]
    exact .inl ⟨habove, rfl⟩

/-- The decoder on a command word and what follows it. -/
theorem decode_leBytes_append (cw : Word) (payload : List Byte) :
    decode (leBytes 4 cw.toNat ++ payload) =
      if cwOp cw = 1 then decodeConstruct cw payload
      else if cwOp cw = 2 then decodeSetIv cw payload
      else if cwOp cw = 3 then decodeCrypt cw payload
      else .error .reservedOpcode := by
  rw [decode, takeWord_leBytes_append]

theorem cwOp_commandWord (i : Instr) :
    cwOp (commandWord i) = Laws.OpcodeOfEncoding.opcode i := by
  cases i with
  | construct eng pad pers key iv => exact (Laws.OpcodeOfEncoding.construct eng pad pers key iv).1
  | setIv iv => exact (Laws.OpcodeOfEncoding.setIv iv).1
  | crypt cap data => exact (Laws.OpcodeOfEncoding.crypt cap data).1

theorem toNat_ofNat_of_fitsSixBits {bytes : List Byte} (h : fitsSixBits bytes = true) :
    (BitVec.ofNat 6 bytes.length).toNat = bytes.length := by
  have hle : bytes.length ≤ 63 := of_decide_eq_true h
  rw [BitVec.toNat_ofNat]
  omega

theorem ofNat_length_of_length_eq_toNat {bytes : List Byte} {n : Nat} {w : BitVec n}
    (h : bytes.length = w.toNat) : BitVec.ofNat n bytes.length = w := by
  rw [h, BitVec.ofNat_toNat, BitVec.setWidth_eq]

theorem fitsSixBits_of_length_eq_toNat {bytes : List Byte} {w : BitVec 6}
    (h : bytes.length = w.toNat) : fitsSixBits bytes = true :=
  decide_eq_true (by have := w.isLt; omega)

/-! ### The round trip, format by format -/

theorem decodeConstruct_commandWord {eng : Engine} {pad : Padding} {pers : Persistence}
    {key iv : List Byte} (hk : fitsSixBits key = true) (hv : fitsSixBits iv = true)
    (rest : List Byte) :
    decodeConstruct (commandWord (.construct eng pad pers key iv)) (key ++ (iv ++ rest)) =
      .ok (.construct eng pad pers key iv, rest) := by
  obtain ⟨heng, hpad, hpers, hklen, hivlen⟩ := fields_commandWord_construct eng pad pers key iv
  have hhigh := (Laws.OpcodeOfEncoding.construct eng pad pers key iv).2
  have hne := paddingBits_ne_three pad
  have hk := toNat_ofNat_of_fitsSixBits hk
  have hv := toNat_ofNat_of_fitsSixBits hv
  obtain ⟨h, _⟩ | ⟨_, h, _⟩ | ⟨_, _, h, _⟩ | ⟨_, pad', key', iv', rest', h1, h2, h3, h4, h5⟩ :=
    decodeConstruct_cases (commandWord (.construct eng pad pers key iv)) (key ++ (iv ++ rest))
  · exact absurd hhigh h
  · exact absurd (hpad.symm.trans h) hne
  · rw [hklen, hivlen, hk, hv, List.length_append, List.length_append] at h
    omega
  · rw [hklen, hk] at h2
    rw [hivlen, hv] at h3
    obtain ⟨rfl, hrest⟩ := List.append_inj h4 h2.symm
    obtain ⟨rfl, rfl⟩ := List.append_inj hrest h3.symm
    rw [h5, heng, hpers, engineOfBits_engineBits, persistenceOfBits_persistenceBits,
      paddingBits_injective (hpad.symm.trans h1)]

theorem decodeSetIv_commandWord {iv : List Byte} (hv : fitsSixBits iv = true) (rest : List Byte) :
    decodeSetIv (commandWord (.setIv iv)) (iv ++ rest) = .ok (.setIv iv, rest) := by
  obtain ⟨hmid, hivlen⟩ := fields_commandWord_setIv iv
  have hhigh := (Laws.OpcodeOfEncoding.setIv iv).2
  have hv := toNat_ofNat_of_fitsSixBits hv
  obtain ⟨h | h, _⟩ | ⟨_, _, h, _⟩ | ⟨_, _, iv', rest', h1, h2, h3⟩ :=
    decodeSetIv_cases (commandWord (.setIv iv)) (iv ++ rest)
  · exact absurd hmid h
  · exact absurd hhigh h
  · rw [hivlen, hv, List.length_append] at h
    omega
  · rw [hivlen, hv] at h1
    obtain ⟨rfl, rfl⟩ := List.append_inj h2 h1.symm
    exact h3

theorem decodeCrypt_commandWord {cap : BitVec 64} {data : List Byte} (hd : fitsLen data = true)
    (rest : List Byte) :
    decodeCrypt (commandWord (.crypt cap data))
        (leBytes 4 data.length ++ (leBytes 8 cap.toNat ++ (data ++ rest))) =
      .ok (.crypt cap data, rest) := by
  have hlt : data.length < 2 ^ 32 := of_decide_eq_true hd
  have hlen : ofLE (leBytes 4 data.length) = data.length := by
    rw [ofLE_leBytes]
    exact Nat.mod_eq_of_lt hlt
  have hcap : BitVec.ofNat 64 (ofLE (leBytes 8 cap.toNat)) = cap := ofNat_ofLE_leBytes (n := 8) cap
  obtain ⟨h, _⟩ | ⟨_, h, _⟩ | ⟨_, len', cap', data', rest', h1, h2, h3, h4, h5⟩ :=
    decodeCrypt_cases (commandWord (.crypt cap data))
      (leBytes 4 data.length ++ (leBytes 8 cap.toNat ++ (data ++ rest)))
  · exact absurd (by rw [commandWord]; decide) h
  · rw [List.take_left' (leBytes_length 4 _), hlen] at h
    simp only [List.length_append, leBytes_length] at h
    omega
  · obtain ⟨rfl, hafter⟩ := List.append_inj h4 (by rw [h1, leBytes_length])
    obtain ⟨rfl, hpayload⟩ := List.append_inj hafter (by rw [h2, leBytes_length])
    obtain ⟨rfl, rfl⟩ := List.append_inj hpayload (by rw [h3, hlen])
    rw [h5, hcap]

/-- Settles O1: the command word carries the opcode, which selects the format's own round trip. -/
theorem decodeOfEncodeIsTheCommand : Obligations.DecodeOfEncodeIsTheCommand := by
  intro i rest hwf
  rw [encode, List.append_assoc, List.append_assoc, decode_leBytes_append, cwOp_commandWord]
  cases i with
  | construct eng pad pers key iv =>
    rw [Instr.wf, Bool.and_eq_true] at hwf
    rw [operandWords, payloadOf, List.nil_append, List.append_assoc]
    exact (if_pos rfl).trans (decodeConstruct_commandWord hwf.1 hwf.2 rest)
  | setIv iv => exact decodeSetIv_commandWord hwf rest
  | crypt cap data =>
    rw [operandWords, payloadOf, List.append_assoc]
    exact decodeCrypt_commandWord hwf rest

/-- What the decoder read in format C has the word it was read from as its command word. -/
theorem encode_of_decodeConstruct_eq_ok {cw : Word} {payload rest : List Byte} {i : Instr}
    (hop : cwOp cw = 1) (h : decodeConstruct cw payload = .ok (i, rest)) :
    i.wf = true ∧ encode i ++ rest = leBytes 4 cw.toNat ++ payload := by
  obtain ⟨_, h'⟩ | ⟨_, _, h'⟩ | ⟨_, _, _, h'⟩ |
      ⟨hhigh, pad, key, iv, rest', hpad, hk, hv, rfl, h'⟩ :=
    decodeConstruct_cases cw payload
  · cases h.symm.trans h'
  · cases h.symm.trans h'
  · cases h.symm.trans h'
  · cases h.symm.trans h'
    refine ⟨Bool.and_eq_true_iff.mpr
      ⟨fitsSixBits_of_length_eq_toNat hk, fitsSixBits_of_length_eq_toNat hv⟩, ?_⟩
    have hword : commandWord (.construct (engineOfBits (cwEng cw)) pad
        (persistenceOfBits (cwPers cw)) key iv) = cw := by
      rw [commandWord, ofNat_length_of_length_eq_toNat hk, ofNat_length_of_length_eq_toNat hv,
        engineBits_engineOfBits, persistenceBits_persistenceOfBits, ← hpad, ← hhigh, ← hop]
      exact (word_eq_fields_construct cw).symm
    rw [encode, hword, operandWords, payloadOf, List.append_nil, List.append_assoc,
      List.append_assoc]

theorem encode_of_decodeSetIv_eq_ok {cw : Word} {payload rest : List Byte} {i : Instr}
    (hop : cwOp cw = 2) (h : decodeSetIv cw payload = .ok (i, rest)) :
    i.wf = true ∧ encode i ++ rest = leBytes 4 cw.toNat ++ payload := by
  obtain ⟨_, h'⟩ | ⟨_, _, _, h'⟩ | ⟨hmid, hhigh, iv, rest', hv, rfl, h'⟩ :=
    decodeSetIv_cases cw payload
  · cases h.symm.trans h'
  · cases h.symm.trans h'
  · cases h.symm.trans h'
    refine ⟨fitsSixBits_of_length_eq_toNat hv, ?_⟩
    have hword : commandWord (.setIv iv) = cw := by
      rw [commandWord, ofNat_length_of_length_eq_toNat hv, ← hmid, ← hhigh, ← hop]
      exact (word_eq_fields_setIv cw).symm
    rw [encode, hword, operandWords, payloadOf, List.append_nil, List.append_assoc]

theorem encode_of_decodeCrypt_eq_ok {cw : Word} {payload rest : List Byte} {i : Instr}
    (hop : cwOp cw = 3) (h : decodeCrypt cw payload = .ok (i, rest)) :
    i.wf = true ∧ encode i ++ rest = leBytes 4 cw.toNat ++ payload := by
  obtain ⟨_, h'⟩ | ⟨_, _, h'⟩ | ⟨habove, len, cap, data, rest', hlen, hcap, hdata, rfl, h'⟩ :=
    decodeCrypt_cases cw payload
  · cases h.symm.trans h'
  · cases h.symm.trans h'
  · cases h.symm.trans h'
    have hlen32 : ofLE len < 2 ^ 32 := by simpa [hlen] using ofLE_lt len
    have hcap64 : ofLE cap < 2 ^ 64 := by simpa [hcap] using ofLE_lt cap
    refine ⟨decide_eq_true (by rwa [hdata]), ?_⟩
    have hword : commandWord (.crypt (BitVec.ofNat 64 (ofLE cap)) data) = cw := by
      rw [commandWord, ← habove, ← hop]
      exact (word_eq_fields_crypt cw).symm
    rw [encode, hword, operandWords, payloadOf, hdata, BitVec.toNat_ofNat, Nat.mod_eq_of_lt hcap64,
      ← hlen, ← hcap, leBytes_ofLE, leBytes_ofLE]
    simp only [List.append_assoc]

/-- Settles O2: the record starts with the word the decoder read, and each format's reserved bits
are 0, so the word is the command word of what was read. -/
theorem encodeOfDecodeIsTheRecord : Obligations.EncodeOfDecodeIsTheRecord := by
  intro bytes i rest h
  cases hword : takeWord bytes with
  | none =>
    rw [decode, hword] at h
    cases h
  | some p =>
    obtain ⟨cw, payload⟩ := p
    obtain rfl := leBytes_append_of_takeWord_eq_some hword
    rw [decode_leBytes_append] at h
    split_ifs at h with h1 h2 h3
    · exact encode_of_decodeConstruct_eq_ok h1 h
    · exact encode_of_decodeSetIv_eq_ok h2 h
    · exact encode_of_decodeCrypt_eq_ok h3 h

end Sys2Proof
end

section
/-!
The decoder's checks in their order, the lengths of records and the worked encodings
(30_encoding.md R79, R81, R90).
-/
namespace Sys2Proof

theorem recordLength_leBytes_append (cw : Word) (payload : List Byte) :
    recordLength (leBytes 4 cw.toNat ++ payload) =
      if cwOp cw = 1 then 4 + (cwKlen cw).toNat + (cwIvlen cw).toNat
      else if cwOp cw = 2 then 4 + (cwIvlen cw).toNat
      else if cwOp cw = 3 then 4 + 4 + 8 + ofLE (payload.take 4)
      else 4 := by
  have hword : BitVec.ofNat 32 (ofLE (leBytes 4 cw.toNat)) = cw := ofNat_ofLE_leBytes (n := 4) cw
  simp only [recordLength, List.take_left' (leBytes_length 4 _),
    List.drop_left' (leBytes_length 4 _), hword]

/-- Settles O5: the opcode selects the format, and the format's cases are the checks that remain. -/
theorem decoderChecksInOrder : Obligations.DecoderChecksInOrder := by
  intro cw payload bytes
  change if cwOp cw ≠ 1 ∧ cwOp cw ≠ 2 ∧ cwOp cw ≠ 3 then _
    else if (cwOp cw = 1 ∧ cwHigh cw ≠ 0) ∨ (cwOp cw = 2 ∧ (cwMid cw ≠ 0 ∨ cwHigh cw ≠ 0)) ∨
      (cwOp cw = 3 ∧ cwAboveOp cw ≠ 0) then _
    else if cwOp cw = 1 ∧ cwPad cw = 3 then _ else _
  have hdecode : decode bytes = _ := decode_leBytes_append cw payload
  have hrecord : recordLength bytes = _ := recordLength_leBytes_append cw payload
  have hlen : bytes.length = 4 + payload.length := by rw [List.length_append, leBytes_length]
  by_cases h1 : cwOp cw = 1
  · rw [if_pos h1] at hdecode hrecord
    obtain ⟨hh, h⟩ | ⟨hh, hp, h⟩ | ⟨hh, hp, hlt, h⟩ |
        ⟨hh, pad, key, iv, rest, hp, hk, hv, rfl, h⟩ :=
      decodeConstruct_cases cw payload
    · simpa [h1, hdecode, h] using hh
    · simp [h1, hh, hp, hdecode, h]
    · simpa [h1, hh, hdecode, h, hrecord, hlen, Nat.not_le.mpr hlt, Nat.add_assoc] using hp
    · simpa [h1, hh, hp, hdecode, h, hrecord, hlen, hk, hv, Nat.add_assoc] using
        paddingBits_ne_three pad
  by_cases h2 : cwOp cw = 2
  · rw [if_neg h1, if_pos h2] at hdecode hrecord
    obtain ⟨hr, h⟩ | ⟨hm, hh, hlt, h⟩ | ⟨hm, hh, iv, rest, hv, rfl, h⟩ :=
      decodeSetIv_cases cw payload
    · simpa [h2, hdecode, h] using hr
    · simp [h2, hm, hh, hdecode, h, hrecord, hlen, Nat.not_le.mpr hlt]
    · simp [h2, hm, hh, hdecode, h, hrecord, hlen, hv]
  by_cases h3 : cwOp cw = 3
  · rw [if_neg h1, if_neg h2, if_pos h3] at hdecode hrecord
    obtain ⟨ha, h⟩ | ⟨ha, hlt, h⟩ | ⟨ha, len, cap, data, rest, hl, hc, hd, rfl, h⟩ :=
      decodeCrypt_cases cw payload
    · simpa [h3, hdecode, h] using ha
    · have hshort : ¬ recordLength bytes ≤ bytes.length := by omega
      simp [h3, ha, hdecode, h, hshort]
    · have hwhole : recordLength bytes ≤ bytes.length := by
        rw [hrecord, hlen, List.take_left' hl]
        simp only [List.length_append]
        omega
      simp [h3, ha, hdecode, h, hwhole]
  · rw [if_neg h1, if_neg h2, if_neg h3] at hdecode
    rw [if_pos ⟨h1, h2, h3⟩, hdecode]

/-- Settles O4: the command word has 4 bytes, `LEN` 4 and `CAP` 8. -/
theorem recordLengthIsFixedByTheFields : Obligations.RecordLengthIsFixedByTheFields := by
  have hlen (i : Instr) :
      (encode i).length = 4 + (operandWords i).length + (payloadOf i).length := by
    rw [encode, List.length_append, List.length_append, leBytes_length]
  refine ⟨fun _ _ _ key iv => ?_, fun iv => ?_, fun cap data => ?_⟩ <;>
    simp only [hlen, operandWords, payloadOf, List.length_append, List.length_nil, leBytes_length]
  omega

/-- Settles O3: the command word depends on the byte strings through their lengths alone. -/
theorem encodingExamplesOfTheTable : Obligations.EncodingExamplesOfTheTable := by
  refine ⟨fun key iv hk hv => ?_, fun key iv hk hv => ?_, fun key iv hk hv => ?_,
      fun key iv hk hv => ?_, fun iv hv => ?_, fun iv hv => ?_, fun data hd => ?_⟩ <;>
    simp only [commandWord, operandWords, *] <;> decide

/-- A record that is the encoding of a well-formed command decodes to it, with nothing left over. -/
theorem decode_encode {i : Instr} (h : i.wf = true) : decode (encode i) = .ok (i, []) := by
  simpa using decodeOfEncodeIsTheCommand i [] h

theorem decode_construct_record (eng : Engine) (pad : Padding) (pers : Persistence)
    {key iv : List Byte} (hk : fitsSixBits key = true) (hv : fitsSixBits iv = true) :
    decode (leBytes 4 (commandWord (.construct eng pad pers key iv)).toNat ++ key ++ iv) =
      .ok (.construct eng pad pers key iv, []) := by
  have h := decode_encode (i := .construct eng pad pers key iv) (Bool.and_eq_true_iff.mpr ⟨hk, hv⟩)
  rwa [encode, operandWords, payloadOf, List.append_nil, ← List.append_assoc] at h

/-- Settles O6: each record is the encoding of its command (`decode_encode`). -/
theorem recordsOfTheProgramsDecode : Obligations.RecordsOfTheProgramsDecode := by
  refine ⟨?_, ?_, fun key iv hk hv => ?_, fun key iv hk hv => ?_⟩
  · exact decode_encode (i := .crypt 5 [0x6b, 0xc1, 0xbe, 0xe2, 0x2e]) (by decide)
  · exact decode_encode (i := .setIv [0x00]) (by decide)
  · have h := decode_construct_record .cbc .pkcs5 .persistAcrossCalls (key := key) (iv := iv)
      (by simp [fitsSixBits, hk]) (by simp [fitsSixBits, hv])
    rwa [commandWord, hk, hv] at h
  · have h := decode_construct_record .ctr .none .rollingPerUnit (key := key) (iv := iv)
      (by simp [fitsSixBits, hk]) (by simp [fitsSixBits, hv])
    rwa [commandWord, hk, hv] at h

end Sys2Proof
end

section
/-!
One step (30_encoding.md R81, 60_exceptions.md R276, 70_reset_and_hazards.md R300): where the
decoder rejects a record the step answers the cause and keeps the registers, else it performs the
command.
-/
namespace Sys2Proof.Machine

/-- Settles O7, by `step_of_decode_eq_ok`. -/
theorem stepPerformsTheDecodedCommand : Obligations.StepPerformsTheDecodedCommand :=
  fun _ _ _ _ _ _ hin hd => step_of_decode_eq_ok hin hd

/-- Settles O9: an empty queue, a short record and an absent instance each stop at their own test.
-/
theorem stepsOutsideTheInterface : Obligations.StepsOutsideTheInterface := by
  refine ⟨fun s hin => ?_, fun s k record queue hin hd => ?_, fun i s he => ?_⟩
  · rw [step, hin]
  · rw [step_of_decode_eq_error hin hd]
    exact rejectRecord_of_illegalCause_eq_none rfl _
  · rw [exec_eq_perform]
    exact perform_eq_refused.mpr ⟨he, rfl⟩

theorem step_platformReset {s : State} {queue : List HostEvent}
    (hin : s.input = .platformReset :: queue) :
    step s = .next (platformReset { s with input := queue }) := by
  rw [step, hin]

/-- Settles O10: the reset empties the table of instances and takes its event off the queue. -/
theorem platformResetClearsEveryInstance : Obligations.PlatformResetClearsEveryInstance :=
  fun _ _ hin => ⟨_, step_platformReset hin, fun _ => ⟨rfl, rfl⟩, rfl, rfl⟩

/-- Settles O11: no instance is listed after reset. -/
theorem resetValuesOfEveryRegister : Obligations.ResetValuesOfEveryRegister :=
  fun _ => ⟨rfl, rfl, rfl, rfl, rfl, rfl, rfl, rfl, rfl, rfl, rfl, rfl, rfl, rfl⟩

/-- Settles O21: each status is the cause above the code. -/
theorem statusBytesOfTheErrors : Obligations.StatusBytesOfTheErrors :=
  ⟨rfl, rfl, rfl, rfl, rfl, rfl, rfl, rfl, rfl, rfl, rfl, rfl, fun _ => rfl⟩

/-- Writing back the registers an instance holds changes no table in canonical form. -/
theorem storeInstance_inst {s : State} {k : Nat} (h : tableWf 0 s.instances = true)
    (he : instanceExists k = true) : storeInstance k (s.inst k) s.instances = s.instances := by
  refine table_ext (tableWf_storeInstance h (Nat.zero_le k) he) h fun j => ?_
  by_cases hj : j = k
  · rw [hj, lookupInstance_storeInstance_same h]
    rfl
  · exact lookupInstance_storeInstance_other hj

/-- A check that fails answers its cause and keeps every register. -/
theorem step_of_illegalCause_eq_some {s : State} {k : Nat} {record : List Byte}
    {queue : List HostEvent} {e : DecodeError} {c : CommandError} (h : s.Inv)
    (hin : s.input = .command k record :: queue) (he : instanceExists k = true)
    (hd : decode record = .error e) (hc : illegalCause e = some c) :
    ∃ t, step s = .next t ∧ t.instances = s.instances ∧ t.input = queue ∧
      t.responses = s.responses ++ [⟨k, raise c⟩] :=
  ⟨(s.issue k queue).after (raise c) (s.inst k),
    (step_of_decode_eq_error hin hd).trans
      ((rejectRecord_of_illegalCause_eq_some hc _).trans (perform_ok he rfl)),
    storeInstance_inst h.1 he, rfl, rfl⟩

/-- Settles O8: the decoder's answer is that of O5 (`decoderChecksInOrder`), branch by branch. -/
theorem illegalCommandChangesNothing : Obligations.IllegalCommandChangesNothing := by
  intro s k cw payload queue record hinv hin he rejects
  have hdecode := decoderChecksInOrder cw payload
  dsimp only at hdecode
  split_ifs at hdecode ⊢ with h1 h2 h3 h4
  · exact step_of_illegalCause_eq_some hinv hin he hdecode rfl
  · exact step_of_illegalCause_eq_some hinv hin he hdecode rfl
  · exact step_of_illegalCause_eq_some hinv hin he hdecode rfl
  · intro _
    obtain ⟨i, rest, hd⟩ := hdecode
    exact ⟨i, rest, hd, step_of_decode_eq_ok hin hd⟩
  · exact fun hwhole => absurd hwhole h4

end Sys2Proof.Machine
end

section
/-!
The CTR engine in closed form (42_ctr_engine.md R173-R179). One byte of the stream moves `OFF` on by
one and advances the counter exactly at `OFF = 0`; the closed forms `ctrOutput` and `ctrAfter` obey
the same recursion, so a stream computes them.
-/
namespace Sys2Proof.Machine

/-! ### How often the counter advances -/

theorem advances_zero (o : Nat) : advances o 0 = 0 := rfl

/-- The counter advances at the first byte exactly where that starts a block. -/
theorem advances_succ {o : Nat} (h : o < 16) (n : Nat) :
    advances o (n + 1) = advances ((o + 1) % 16) n + if o = 0 then 1 else 0 := by
  simp only [advances]
  split_ifs <;> omega

/-- Settles O28: both sides take one byte at a time (`advances_succ`). -/
theorem advancesCountsTheBlockStarts : Obligations.AdvancesCountsTheBlockStarts := by
  intro o n ho
  refine ⟨?_, fun h0 => ?_⟩
  · induction n generalizing o with
    | zero => rfl
    | succ n ih =>
      have htail : ((List.range n).map Nat.succ).filter (fun i => (o + i) % 16 == 0) =
          ((List.range n).filter fun i => ((o + 1) % 16 + i) % 16 == 0).map Nat.succ := by
        rw [List.filter_map]
        congr 2
        funext i
        simp only [Function.comp_apply, Nat.succ_eq_add_one]
        congr 1
        omega
      rw [advances_succ ho, ih _ (Nat.mod_lt _ (by decide)), List.range_succ_eq_map,
        List.filter_cons, htail]
      by_cases h0 : o = 0
      · simp [h0]
      · simp [h0, Nat.mod_eq_of_lt ho]
  · simp only [advances, h0]
    split_ifs <;> omega

/-! ### The keystream -/

section
variable (rk : List Word) (nr : BitVec 4) (cb : Block)

/-- The output of a stream of bytes (42_ctr_engine.md R174). -/
def ctrOutput (off : BitVec 4) (ks : Block) (data : List Byte) : List Byte :=
  (List.range data.length).map fun i =>
    data.getD i 0 ^^^ keystreamByte rk nr cb off ks (off.toNat + i)

/-- The registers after a stream of `n` bytes (42_ctr_engine.md R174, R177). -/
def ctrAfter (off : BitVec 4) (n : Nat) (x : Instance) : Instance :=
  { x with
    cb := some (counterBlockAfter cb (advances off.toNat n))
    off := some (BitVec.ofNat 4 (off.toNat + n))
    ks := keystreamBlockAfter rk nr cb x.ks (advances off.toNat n) }

/-- From the start of a block on, the keystream is that of the block just computed and of the
counter blocks after it. -/
theorem keystreamByte_start (ks : Block) (p : Nat) :
    keystreamByte rk nr cb 0 ks p =
      keystreamByte rk nr (inc64 cb) 1 (aesEncrypt rk nr.toNat cb) p := by
  rw [keystreamByte, if_pos rfl, keystreamByte, if_neg (by decide)]
  by_cases hp : p < 16
  · rw [if_pos hp, Nat.div_eq_of_lt hp, Nat.mod_eq_of_lt hp, counterBlockAfter_zero]
  · rw [if_neg hp, counterBlockAfter_inc64]
    congr 3
    omega

theorem toNat_add_one_of_ne {off : BitVec 4} (h : off ≠ 15) : (off + 1).toNat = off.toNat + 1 := by
  bv_omega

/-- In the middle of a block the keystream goes on where it is. -/
theorem keystreamByte_mid {off : BitVec 4} (h : off ≠ 0) (ks : Block) (i : Nat) :
    keystreamByte rk nr cb off ks (off.toNat + (i + 1)) =
      keystreamByte rk nr cb (off + 1) ks ((off + 1).toNat + i) := by
  by_cases h15 : off = 15
  · subst h15
    have hpos : (15 : BitVec 4).toNat + (i + 1) = i + 16 := by
      rw [show (15 : BitVec 4).toNat = 15 from rfl]
      omega
    have hnext : ((15 : BitVec 4) + 1).toNat + i = i := Nat.zero_add i
    rw [hpos, hnext, keystreamByte, if_neg h, if_neg (by omega), keystreamByte, if_pos (by decide),
      Nat.add_div_right _ (by decide), Nat.add_mod_right, Nat.succ_sub_one]
  · have hne : off + 1 ≠ 0 := by bv_omega
    have hpos : off.toNat + (i + 1) = (off + 1).toNat + i := by rw [toNat_add_one_of_ne h15]; omega
    rw [keystreamByte, if_neg h, keystreamByte, if_neg hne, hpos]

/-! ### The closed forms, byte by byte -/

@[simp] theorem ctrOutput_length (off : BitVec 4) (ks : Block) (data : List Byte) :
    (ctrOutput rk nr cb off ks data).length = data.length := by
  rw [ctrOutput, List.length_map, List.length_range]

theorem ctrOutput_cons (off : BitVec 4) (ks : Block) (p : Byte) (rest : List Byte) :
    ctrOutput rk nr cb off ks (p :: rest) = (p ^^^ keystreamByte rk nr cb off ks off.toNat) ::
      (List.range rest.length).map fun i =>
        rest.getD i 0 ^^^ keystreamByte rk nr cb off ks (off.toNat + (i + 1)) := by
  rw [ctrOutput, List.length_cons, List.range_succ_eq_map, List.map_cons, List.map_map]
  rfl

theorem ctrOutput_cons_start (ks : Block) (p : Byte) (rest : List Byte) :
    ctrOutput rk nr cb 0 ks (p :: rest) = (p ^^^ blockByte (aesEncrypt rk nr.toNat cb) 0) ::
      ctrOutput rk nr (inc64 cb) 1 (aesEncrypt rk nr.toNat cb) rest := by
  rw [ctrOutput_cons, ctrOutput]
  simp only [keystreamByte_start rk nr cb ks]
  refine congrArg₂ List.cons rfl (List.map_congr_left fun i _ => ?_)
  rw [show (0 : BitVec 4).toNat + (i + 1) = (1 : BitVec 4).toNat + i from
    (Nat.zero_add _).trans (Nat.add_comm i 1)]

theorem ctrOutput_cons_mid {off : BitVec 4} (h : off ≠ 0) (ks : Block) (p : Byte)
    (rest : List Byte) :
    ctrOutput rk nr cb off ks (p :: rest) = (p ^^^ blockByte ks off.toNat) ::
      ctrOutput rk nr cb (off + 1) ks rest := by
  rw [ctrOutput_cons, ctrOutput, keystreamByte, if_neg h, if_pos off.isLt]
  simp only [keystreamByte_mid rk nr cb h]

theorem ctrAfter_zero {off : BitVec 4} {x : Instance} (hcb : x.cb = some cb)
    (hoff : x.off = some off) :
    ctrAfter rk nr cb off 0 x = x := by
  cases x
  simp_all [ctrAfter, advances_zero, keystreamBlockAfter]

theorem ctrAfter_succ_start (n : Nat) (x : Instance) :
    ctrAfter rk nr cb 0 (n + 1) x = ctrAfter rk nr (inc64 cb) 1 n
      { x with ks := some (aesEncrypt rk nr.toNat cb), cb := some (inc64 cb), off := some 1 } := by
  have hadv : advances (0 : BitVec 4).toNat (n + 1) = advances (1 : BitVec 4).toNat n + 1 :=
    advances_succ (by decide) n
  have hks : keystreamBlockAfter rk nr (inc64 cb) (some (aesEncrypt rk nr.toNat cb))
      (advances (1 : BitVec 4).toNat n) =
        keystreamBlockAfter rk nr cb x.ks (advances (1 : BitVec 4).toNat n + 1) := by
    cases advances (1 : BitVec 4).toNat n with
    | zero => rw [keystreamBlockAfter, keystreamBlockAfter, counterBlockAfter_zero]
    | succ m => rw [keystreamBlockAfter, keystreamBlockAfter, counterBlockAfter_inc64]
  simp only [ctrAfter, hadv, hks, counterBlockAfter_inc64]
  congr 2
  exact congrArg _ ((Nat.zero_add _).trans (Nat.add_comm n 1))

theorem ctrAfter_succ_mid {off : BitVec 4} (h : off ≠ 0) (n : Nat) (x : Instance) :
    ctrAfter rk nr cb off (n + 1) x =
      ctrAfter rk nr cb (off + 1) n { x with off := some (off + 1) } := by
  have hadv : advances off.toNat (n + 1) = advances (off + 1).toNat n := by
    rw [advances_succ off.isLt, if_neg (by bv_omega), BitVec.toNat_add]
    rfl
  have hoff : BitVec.ofNat 4 (off.toNat + (n + 1)) = BitVec.ofNat 4 ((off + 1).toNat + n) := by
    apply BitVec.eq_of_toNat_eq
    rw [BitVec.toNat_ofNat, BitVec.toNat_ofNat, BitVec.toNat_add]
    have : (1 : BitVec 4).toNat = 1 := rfl
    omega
  simp only [ctrAfter, hadv, hoff]

/-- A stream computes the closed forms. -/
theorem ctrStream_eq {x : Instance} {off : BitVec 4} {ks : Block} (hrk : x.rk = some rk)
    (hnr : x.nr = some nr) (hcb : x.cb = some cb) (hoff : x.off = some off)
    (hks : off ≠ 0 → x.ks = some ks) (data : List Byte) :
    ctrStream x data =
      .ok (ctrOutput rk nr cb off ks data, ctrAfter rk nr cb off data.length x) := by
  induction data generalizing x cb off ks with
  | nil =>
    rw [List.length_nil, ctrAfter_zero rk nr cb hcb hoff]
    rfl
  | cons p rest ih =>
    rw [ctrStream_cons_ok]
    by_cases h0 : off = 0
    · subst h0
      rw [ctrOutput_cons_start, List.length_cons, ctrAfter_succ_start]
      exact ⟨_, _, _, ctrByte_start hoff hrk hnr hcb p, ih _ hrk hnr rfl rfl fun _ => rfl, rfl⟩
    · rw [ctrOutput_cons_mid rk nr cb h0, List.length_cons, ctrAfter_succ_mid rk nr cb h0]
      exact ⟨_, _, _, ctrByte_mid hoff h0 (hks h0) p, ih _ hrk hnr hcb rfl fun _ => hks h0, rfl⟩

end

/-! ### CRYPT on a ready instance -/

theorem Instance.CtrReady.ks_eq {x : Instance} {rk : List Word} {nr : BitVec 4} {cb : Block}
    {off : BitVec 4} (h : x.CtrReady rk nr cb off) (h0 : off ≠ 0) : x.ks = some (x.ks.getD 0) := by
  obtain ⟨_, _, _, _, _, _, _, hks⟩ := h
  obtain ⟨ks, hks⟩ := hks h0
  rw [hks, Option.getD_some]

theorem cryptCtr_of_ctrStream {cap : BitVec 64} {data out : List Byte} {x y : Instance}
    (hcap : data.length ≤ cap.toNat) (h : ctrStream x data = .ok (out, y)) :
    cryptCtr cap data x = .ok (respondOk out, y) := by
  rw [cryptCtr, if_neg hcap.not_gt, h]

theorem cryptOn_ctr {x : Instance} {rk : List Word} {nr : BitVec 4} {cb : Block} {off : BitVec 4}
    (h : x.CtrReady rk nr cb off) {cap : BitVec 64} {data : List Byte}
    (hcap : data.length ≤ cap.toNat) :
    cryptOn cap data x = .ok (respondOk (ctrOutput rk nr cb off (x.ks.getD 0) data),
      ctrAfter rk nr cb off data.length x) := by
  have ⟨_, _, _, hrk, hnr, hcb, hoff, _⟩ := h
  rw [cryptOn_ctrReady h]
  exact cryptCtr_of_ctrStream hcap (ctrStream_eq rk nr cb hrk hnr hcb hoff h.ks_eq data)

/-- Settles O27: a stream computes the closed forms (`ctrStream_eq`). -/
theorem ctrCryptXorsTheKeystream : Obligations.CtrCryptXorsTheKeystream :=
  fun _ _ _ _ _ _ _ he hready hcap => exec_of_commandOn he (cryptOn_ctr hready hcap)

theorem ctrOutput_ctrOutput (rk : List Word) (nr : BitVec 4) (cb : Block) (off : BitVec 4)
    (ks : Block) (data : List Byte) : ctrOutput rk nr cb off ks (ctrOutput rk nr cb off ks data) = data := by
  refine List.ext_getElem (by simp) fun i h1 h2 => ?_
  simp [ctrOutput, List.getD, h2]

/-- Settles O30: the keystream does not depend on the data, so a second XOR takes it off again. -/
theorem ctrIsItsOwnInverse : Obligations.CtrIsItsOwnInverse := by
  intro s s' cap cap' plain rk nr cb off he he' hinst hready hcap hcap'
  refine ⟨_, _, exec_of_commandOn he (cryptOn_ctr hready hcap), ?_⟩
  apply exec_of_commandOn he'
  rw [commandOn, ← hinst, cryptOn_ctr hready (by simpa using hcap'), ctrOutput_ctrOutput,
    ctrOutput_length]

end Sys2Proof.Machine
end

section
/-!
The output of a CBC CRYPT (43_cbc_engine.md R200-R217): its length is the required length, whatever
the state; and on a ready instance it always answers.
-/
namespace Sys2Proof.Machine

/-! ### The length of the output -/

theorem stealOutput_length {region : List Byte} (e : Block) {res : Nat} (h : 16 ≤ region.length)
    (hres : res ≤ 16) : (stealOutput region e res).length = region.length + res := by
  simp only [stealOutput, List.length_append, List.length_take, List.length_drop, blockBytes_length]
  omega

theorem finishCbc_length {pad : Padding} {region tail : List Byte} {x y : Instance} {r : Response}
    (htail : tail.length < 16) (hregion : pad = .cipherTextStealing → 16 ≤ region.length)
    (h : finishCbc pad region tail x = .ok (r, y)) :
    ∃ out, r = respondOk out ∧
      out.length = region.length + requiredLength pad tail.length := by
  unfold finishCbc at h
  split_ifs at h with hdone
  · obtain ⟨hnil, hpad⟩ := hdone
    cases h
    refine ⟨region, rfl, ?_⟩
    cases pad <;> simp_all [requiredLength, numPadding]
  · cases pad with
    | none =>
      cases h
      exact ⟨_, rfl, List.length_append⟩
    | pkcs5 =>
      simp only [padBlock] at h
      split at h
      · cases h
      · cases h
        refine ⟨_, rfl, ?_⟩
        simp only [List.length_append, blockBytes_length, requiredLength, numPadding, residual]
        omega
    | cipherTextStealing =>
      simp only [steal] at h
      split at h
      · cases h
      · cases h
        exact ⟨_, rfl, stealOutput_length _ (hregion rfl) htail.le⟩

/-- The complete blocks and the required length of the tail make up the required length. -/
theorem requiredLength_residual (pad : Padding) (n : Nat) :
    16 * (n / 16) + requiredLength pad (n % 16) = requiredLength pad n := by
  cases pad <;> simp only [requiredLength, numPadding, residual] <;> omega

theorem cbcMessage_length {pad : Padding} {data : List Byte} {x y : Instance} {r : Response}
    (h : cbcMessage pad data x = .ok (r, y)) :
    ∃ out, r = respondOk out ∧ out.length = requiredLength pad data.length := by
  unfold cbcMessage at h
  split_ifs at h with hshort
  · cases h
    exact ⟨data, rfl, by rw [hshort.2]; rfl⟩
  · rw [completeBytes_eq] at h hshort
    split at h
    · cases h
    · rename_i cs z hregion
      have hcs : cs.length = data.length / 16 := by
        rw [(cbcRegion_frame hregion).2, blocksOf_length]
        omega
      obtain ⟨out, hr, hout⟩ := finishCbc_length
        (by rw [length_drop_completeBlocks]; exact Nat.mod_lt _ (by decide))
        (fun hpad => by
          rw [blocksBytes_length, hcs]
          by_contra hlt
          exact hshort ⟨by omega, hpad⟩) h
      rw [blocksBytes_length, hcs, length_drop_completeBlocks, requiredLength_residual] at hout
      exact ⟨out, hr, hout⟩

/-- CRYPT on a CBC instance answers a CapacityError, or as many bytes as are required and fit. -/
theorem cryptCbc_length {cap : BitVec 64} {data : List Byte} {x y : Instance} {r : Response}
    (h : cryptCbc cap data x = .ok (r, y)) :
    r = raise .capacity ∨ ∃ pad out, r = respondOk out ∧
      out.length = requiredLength pad data.length ∧ out.length ≤ cap.toNat := by
  unfold cryptCbc at h
  split at h
  · cases h
  · rename_i pad _
    split_ifs at h with hcap
    · cases h
      exact .inl rfl
    · split at h
      · cases h
      · obtain ⟨out, hr, hout⟩ := cbcMessage_length h
        exact .inr ⟨pad, out, hr, hout, by omega⟩

/-- Settles O36: the output has the required length (`cbcMessage_length`). -/
theorem cbcOutputLength : Obligations.CbcOutputLength := by
  intro s t cap data rk nr start pad r hready hlen hexec hresp hok
  obtain ⟨_, r', x, hcrypt, rfl⟩ := exec_eq_next.mp hexec
  obtain rfl : r' = r := by simpa using hresp
  rw [commandOn, cryptOn_cbcReady hready] at hcrypt
  split_ifs at hcrypt with hcap
  · cases hcrypt
    exact absurd hok (by decide)
  · obtain ⟨out, rfl, hout⟩ := cbcMessage_length hcrypt
    rw [respondOk_out, respondOk_outLen, BitVec.toNat_ofNat, hout]
    cases pad <;> simp [requiredLength, numPadding, residual] <;> omega

/-! ### A ready instance answers -/

/-- With a key schedule and a chaining value a message is encrypted, and only `CV` changes. -/
theorem cbcMessage_ok {x : Instance} {rk : List Word} {nr : BitVec 4} {cv : Block}
    (hrk : x.rk = some rk) (hnr : x.nr = some nr) (hcv : x.cv = some cv) (pad : Padding)
    (data : List Byte) :
    ∃ out cv', cbcMessage pad data x = .ok (respondOk out, { x with cv := some cv' }) := by
  by_cases hshort : pad = .cipherTextStealing ∧ data.length < 16
  · obtain ⟨rfl, hlt⟩ := hshort
    rw [cbcMessage_cipherTextStealing_of_lt hlt]
    exact ⟨data, cv, by rw [← hcv]⟩
  · rw [cbcMessage_eq_finishCbc hrk hnr hcv fun hpad => not_lt.mp fun hlt => hshort ⟨hpad, hlt⟩]
    cases pad with
    | none => exact ⟨_, _, finishCbc_none _ _ _⟩
    | pkcs5 => exact ⟨_, _, finishCbc_pkcs5 (x := { x with cv := some _ }) hrk hnr rfl _ _⟩
    | cipherTextStealing =>
      by_cases htail : data.drop (16 * (data.length / 16)) = []
      · rw [htail]
        exact ⟨_, _, finishCbc_of_tail_nil (by decide) _ _⟩
      · exact ⟨_, _, finishCbc_cipherTextStealing (x := { x with cv := some _ }) hrk hnr rfl _
          (mt List.length_eq_zero_iff.mp htail)⟩

/-- A CRYPT of a ready CBC instance with room for the output succeeds, and only `CV` changes. -/
theorem cryptOn_cbc {x : Instance} {pad : Padding} {rk : List Word} {nr : BitVec 4} {start : Block}
    (h : x.CbcReady pad rk nr start) {cap : BitVec 64} {data : List Byte}
    (hcap : requiredLength pad data.length ≤ cap.toNat) :
    ∃ out cv, cryptOn cap data x = .ok (respondOk out, { x with cv := some cv }) := by
  have ⟨_, _, _, _, hrk, hnr, _⟩ := h
  rw [cryptOn_cbcReady h, if_neg hcap.not_gt]
  exact cbcMessage_ok (x := { x with cv := some start }) hrk hnr rfl pad data

/-- Under RollingPerUnit a call does not depend on the `CV` that the call before it left. -/
theorem Instance.CbcReady.of_rolling {x : Instance} {pad : Padding} {rk : List Word} {nr : BitVec 4}
    {start : Block} (h : x.CbcReady pad rk nr start) (hp : x.pers = some .rollingPerUnit)
    (cv : Option Block) : { x with cv := cv }.CbcReady pad rk nr start := by
  obtain ⟨hc, hv, heng, hpad, hrk, hnr, ⟨_, hivr⟩ | ⟨hpersist, _⟩⟩ := h
  · exact ⟨hc, hv, heng, hpad, hrk, hnr, .inl ⟨hp, hivr⟩⟩
  · cases hp.symm.trans hpersist

theorem requiredLength_le (pad : Padding) (n : Nat) : requiredLength pad n ≤ n + 16 := by
  cases pad <;> simp only [requiredLength, numPadding] <;> omega

end Sys2Proof.Machine
end

section
/-!
Two commands on one instance: the second write of its registers replaces the first.
-/
namespace Sys2Proof.Machine

theorem storeInstance_storeInstance {t : List (Nat × Instance)} {k : Nat} (x y : Instance)
    (h : tableWf 0 t = true) (he : instanceExists k = true) :
    storeInstance k y (storeInstance k x t) = storeInstance k y t := by
  have hx := tableWf_storeInstance (x := x) h (Nat.zero_le k) he
  refine table_ext (tableWf_storeInstance hx (Nat.zero_le k) he)
    (tableWf_storeInstance h (Nat.zero_le k) he) fun j => ?_
  by_cases hj : j = k
  · rw [hj, lookupInstance_storeInstance_same hx, lookupInstance_storeInstance_same h]
  · simp only [lookupInstance_storeInstance_other hj]

theorem State.after_after_instances {s : State} {r r' : Response} {x y : Instance}
    (h : tableWf 0 s.instances = true) (he : instanceExists s.sel = true) :
    ((s.after r x).after r' y).instances = (s.after r' y).instances :=
  storeInstance_storeInstance x y h he

theorem State.after_after_inst {s : State} {r r' : Response} {x y : Instance}
    (h : tableWf 0 s.instances = true) (he : instanceExists s.sel = true) :
    ((s.after r x).after r' y).inst s.sel = y :=
  State.after_inst_same (s := s.after r x) (State.after_tableWf h he)

/-- A command that follows another on the same instance. -/
theorem exec_after {s : State} {i : Instr} {r r' : Response} {x y : Instance}
    (h : tableWf 0 s.instances = true) (he : instanceExists s.sel = true)
    (hi : commandOn i x = .ok (r', y)) :
    exec i (s.after r x) = .next ((s.after r x).after r' y) :=
  exec_of_commandOn he (by rwa [State.after_sel, State.after_inst_same h])

/-- Settles O37: the second call starts from `IVR` again, so it is the first call on the same
registers but for `CV`, which is overwritten. -/
theorem rollingCbcRepeats : Obligations.RollingCbcRepeats := by
  intro s cap data rk nr start pad hinv he hready hpers hcap
  have hreq := (requiredLength_le pad data.length).trans hcap
  obtain ⟨out, cv, hfirst⟩ := cryptOn_cbc hready hreq
  have hsecond : cryptOn cap data { s.inst s.sel with cv := some cv } =
      .ok (respondOk out, { s.inst s.sel with cv := some cv }) := by
    rw [← hfirst, cryptOn_cbcReady hready, cryptOn_cbcReady (hready.of_rolling hpers _),
      if_neg hreq.not_gt, if_neg hreq.not_gt]
  exact ⟨_, _, _, exec_of_commandOn he hfirst, exec_after hinv.1 he hsecond, rfl, rfl,
    State.after_after_instances hinv.1 he⟩

end Sys2Proof.Machine
end

section
/-!
CBC chains that run across calls (43_cbc_engine.md R217). With PAD None a call is the closed form
`cbcOutput` from where it starts to `cbcEnd`; at a multiple of 16 bytes both split.
-/
namespace Sys2Proof.Machine

section
variable (rk : List Word) (nr : BitVec 4)

/-- The ciphertext blocks of the complete blocks of a message chained from `start`. -/
def cbcChain (start : Block) (data : List Byte) : List Block :=
  standardCbc rk nr start (blocksOf (data.length / 16) data)

/-- The output of a call with PAD None (43_cbc_engine.md R206, R209). -/
def cbcOutput (start : Block) (data : List Byte) : List Byte :=
  blocksBytes (cbcChain rk nr start data) ++ data.drop (16 * (data.length / 16))

/-- `CV` after a call with PAD None. -/
def cbcEnd (start : Block) (data : List Byte) : Block :=
  (cbcChain rk nr start data).getLast?.getD start

theorem cbcChain_append (start : Block) {a : List Byte} (ha : a.length % 16 = 0) (b : List Byte) :
    cbcChain rk nr start (a ++ b) =
      cbcChain rk nr start a ++ cbcChain rk nr (cbcEnd rk nr start a) b := by
  have hn : (a ++ b).length / 16 = a.length / 16 + b.length / 16 := by
    rw [List.length_append]
    omega
  rw [cbcChain, hn, blocksOf_append _ _ a b (by omega), standardCbc_append]
  rfl

theorem cbcOutput_of_mod_eq_zero (start : Block) {data : List Byte} (h : data.length % 16 = 0) :
    cbcOutput rk nr start data = blocksBytes (cbcChain rk nr start data) := by
  rw [cbcOutput, List.drop_of_length_le (by omega), List.append_nil]

theorem cbcOutput_append (start : Block) {a : List Byte} (ha : a.length % 16 = 0) (b : List Byte) :
    cbcOutput rk nr start (a ++ b) =
      cbcOutput rk nr start a ++ cbcOutput rk nr (cbcEnd rk nr start a) b := by
  have hn : 16 * ((a ++ b).length / 16) = a.length + 16 * (b.length / 16) := by
    rw [List.length_append]
    omega
  rw [cbcOutput_of_mod_eq_zero rk nr start ha, cbcOutput, cbcOutput, cbcChain_append rk nr start ha,
    hn, List.drop_append, List.drop_of_length_le (by omega), blocksBytes, List.flatMap_append,
    Nat.add_sub_cancel_left, List.nil_append, List.append_assoc]
  rfl

theorem cbcEnd_append (start : Block) {a : List Byte} (ha : a.length % 16 = 0) (b : List Byte) :
    cbcEnd rk nr start (a ++ b) = cbcEnd rk nr (cbcEnd rk nr start a) b := by
  rw [cbcEnd, cbcChain_append rk nr start ha, List.getLast?_append, Option.getD_or]
  rfl

end

section
variable {x : Instance} {rk : List Word} {nr : BitVec 4} {start : Block}

theorem cryptOn_cbc_none (h : x.CbcReady .none rk nr start) {cap : BitVec 64} {data : List Byte}
    (hcap : data.length ≤ cap.toNat) :
    cryptOn cap data x = .ok (respondOk (cbcOutput rk nr start data),
      { x with cv := some (cbcEnd rk nr start data) }) := by
  have ⟨_, _, _, _, hrk, hnr, _⟩ := h
  have hreq : ¬ cap.toNat < requiredLength .none data.length := hcap.not_gt
  rw [cryptOn_cbcReady h, if_neg hreq,
    cbcMessage_eq_finishCbc (x := { x with cv := some start }) (pad := .none) hrk hnr rfl nofun,
    finishCbc_none]
  rfl

/-- Under PersistAcrossCalls the next call starts at `CV`. -/
theorem Instance.CbcReady.of_persist {pad : Padding} (h : x.CbcReady pad rk nr start)
    (hp : x.pers = some .persistAcrossCalls) (cv : Block) :
    { x with cv := some cv }.CbcReady pad rk nr cv := by
  obtain ⟨hc, hv, heng, hpad, hrk, hnr, _⟩ := h
  exact ⟨hc, hv, heng, hpad, hrk, hnr, .inr ⟨hp, rfl⟩⟩

end

/-- Settles O38: the second call starts where the first ended, and the closed forms split there. -/
theorem persistentCbcContinues : Obligations.PersistentCbcContinues := by
  intro s cap cap1 cap2 first second rk nr start hinv he hready hpers hwhole hcap1 hcap2 hcap
  have hboth := cryptOn_cbc_none hready (data := first ++ second)
    (by rwa [List.length_append] : _ ≤ cap.toNat)
  have hfirst := cryptOn_cbc_none hready hcap1
  have hsecond := cryptOn_cbc_none (hready.of_persist hpers (cbcEnd rk nr start first)) hcap2
  rw [cbcOutput_append rk nr start hwhole, cbcEnd_append rk nr start hwhole] at hboth
  exact ⟨_, _, _, _, _, exec_of_commandOn he hboth, exec_of_commandOn he hfirst,
    exec_after hinv.1 he hsecond, rfl, by simp, State.after_after_instances hinv.1 he⟩

end Sys2Proof.Machine
end

section
/-!
SET_IV, CRYPT and their errors on one instance (41_construct_setiv.md R151-R154, 60_exceptions.md
R270-R281): an equation for each way a command answers, carried to the state by `exec_of_commandOn`.
-/
namespace Sys2Proof.Machine

/-! ### Preconditions and operands -/

theorem setIvOn_of_configured_eq_false {x : Instance} (h : x.configured = false) (iv : List Byte) :
    setIvOn iv x = .ok (raise .notConstructed, x) :=
  if_neg (by rw [h]; decide)

theorem cryptOn_of_configured_eq_false {x : Instance} (h : x.configured = false) (cap : BitVec 64)
    (data : List Byte) : cryptOn cap data x = .ok (raise .notConstructed, x) :=
  if_neg (by rw [h]; decide)

theorem cryptOn_of_ivValid_eq_false {x : Instance} (hc : x.configured = true)
    (hv : x.ivValid = false) (cap : BitVec 64) (data : List Byte) :
    cryptOn cap data x = .ok (raise .ivNotValid, x) := by
  rw [cryptOn, if_pos hc, hv]
  rfl

theorem setIvOn_of_setIvCore {x y : Instance} {iv : List Byte} (hc : x.configured = true)
    (hmin : 1 ≤ iv.length) (hmax : iv.length ≤ 16) (h : setIvCore iv x = .ok y) :
    setIvOn iv x = .ok (respondOk [], y) := by
  rw [setIvOn, if_pos hc, ivCheck_eq_none.mpr ⟨hmin, hmax⟩, h]

/-- Settles O18: the preconditions are tested before the operands. -/
theorem preconditionErrorsChangeNothing : Obligations.PreconditionErrorsChangeNothing := by
  intro s x he
  refine ⟨fun hc iv => ?_, fun hc cap data => ?_, fun hc hv cap data => ?_⟩
  · exact exec_of_commandOn he (setIvOn_of_configured_eq_false hc iv)
  · exact exec_of_commandOn he (cryptOn_of_configured_eq_false hc cap data)
  · exact exec_of_commandOn he (cryptOn_of_ivValid_eq_false hc hv cap data)

/-- Settles O16: the IV passes its checks and `setIvCore` loads it into the engine. -/
theorem setIvLoadsTheRunningState : Obligations.SetIvLoadsTheRunningState := by
  intro s iv x he hc hmin hmax
  refine ⟨fun heng => ?_, fun heng => ?_⟩
  · exact exec_of_commandOn he (setIvOn_of_setIvCore hc hmin hmax (setIvCore_ctr heng))
  · exact exec_of_commandOn he (setIvOn_of_setIvCore hc hmin hmax (setIvCore_cbc heng))

theorem constructed_ks (eng : Engine) (pad : Padding) (pers : Persistence) (key iv : List Byte) :
    (constructed eng pad pers key iv).ks = none := by
  cases eng <;> rfl

/-- Settles O13: a CONSTRUCT leaves the reset state or the registers `constructed`, and `KS` holds
no value in either. -/
theorem constructDiscardsTheKeystreamBlock : Obligations.ConstructDiscardsTheKeystreamBlock := by
  intro s t eng pad pers key iv hinv hexec
  obtain ⟨_, r, x, hx, rfl⟩ := exec_eq_next.mp hexec
  rw [State.after_inst_same hinv.1]
  obtain ⟨e, _, h⟩ | ⟨_, h⟩ := constructOn_cases eng pad pers key iv
  · cases hx.symm.trans h
    rfl
  · cases hx.symm.trans h
    exact constructed_ks eng pad pers key iv

/-! ### The response of CRYPT -/

/-- What CRYPT on a CTR instance can do: a CapacityError, or a stream. -/
theorem cryptCtr_cases {cap : BitVec 64} {data : List Byte} {x y : Instance} {r : Response}
    (h : cryptCtr cap data x = .ok (r, y)) :
    (r = raise .capacity ∧ y = x) ∨
    ∃ out, r = respondOk out ∧ data.length ≤ cap.toNat ∧ ctrStream x data = .ok (out, y) := by
  unfold cryptCtr at h
  split_ifs at h with hcap
  · cases h
    exact .inl ⟨rfl, rfl⟩
  · split at h
    · cases h
    · rename_i out z hstream
      cases h
      exact .inr ⟨out, rfl, not_lt.mp hcap, hstream⟩

/-- CRYPT answers one of its three errors, or an output that fits the capacity. -/
theorem cryptOn_response {cap : BitVec 64} {data : List Byte} {x y : Instance} {r : Response}
    (h : cryptOn cap data x = .ok (r, y)) :
    (∃ e, (e = .notConstructed ∨ e = .ivNotValid ∨ e = .capacity) ∧ r = raise e) ∨
    ∃ out, r = respondOk out ∧ out.length ≤ data.length + 16 ∧ out.length ≤ cap.toNat := by
  obtain ⟨_, rfl, _⟩ | ⟨_, _, rfl, _⟩ | ⟨_, _, _, hctr⟩ | ⟨_, _, _, hcbc⟩ := cryptOn_cases h
  · exact .inl ⟨_, .inl rfl, rfl⟩
  · exact .inl ⟨_, .inr (.inl rfl), rfl⟩
  · obtain ⟨rfl, _⟩ | ⟨out, rfl, hcap, hstream⟩ := cryptCtr_cases hctr
    · exact .inl ⟨_, .inr (.inr rfl), rfl⟩
    · have hlen := ctrStream_length hstream
      exact .inr ⟨out, rfl, by omega, by omega⟩
  · obtain rfl | ⟨pad, out, rfl, hlen, hcap⟩ := cryptCbc_length hcbc
    · exact .inl ⟨_, .inr (.inr rfl), rfl⟩
    · exact .inr ⟨out, rfl, hlen ▸ requiredLength_le pad data.length, hcap⟩

/-- Settles O22: the response is the one the command's function gives, case by case. -/
theorem oneResponseWithAListedStatus : Obligations.OneResponseWithAListedStatus := by
  intro i s t hwf hexec
  obtain ⟨_, r, x, hi, rfl⟩ := exec_eq_next.mp hexec
  refine ⟨r, rfl, ?_⟩
  cases i with
  | construct eng pad pers key iv =>
    obtain ⟨e, hcheck, h⟩ | ⟨_, h⟩ := constructOn_cases eng pad pers key iv
    · cases hi.symm.trans h
      rw [constructCheck_eq] at hcheck
      split_ifs at hcheck <;> cases hcheck <;> exact ⟨rfl, by decide, rfl⟩
    · cases hi.symm.trans h
      exact ⟨rfl, by decide, rfl⟩
  | setIv iv =>
    obtain ⟨_, rfl, _⟩ | ⟨_, e, hcheck, rfl, _⟩ | ⟨_, _, rfl, _⟩ := setIvOn_cases hi
    · exact ⟨rfl, by decide, rfl⟩
    · unfold ivCheck at hcheck
      split_ifs at hcheck <;> cases hcheck <;> exact ⟨rfl, by decide, rfl⟩
    · exact ⟨rfl, by decide, rfl⟩
  | crypt cap data =>
    have hdata : data.length < 2 ^ 32 := of_decide_eq_true hwf
    obtain ⟨e, rfl | rfl | rfl, rfl⟩ | ⟨out, rfl, hlen, _⟩ := cryptOn_response hi
    · exact ⟨rfl, by decide, fun _ => rfl⟩
    · exact ⟨rfl, by decide, fun _ => rfl⟩
    · exact ⟨rfl, by decide, fun _ => rfl⟩
    · refine ⟨?_, by simp [okStatus], fun h => absurd rfl h⟩
      rw [respondOk_outLen, respondOk_out, BitVec.toNat_ofNat]
      omega

theorem hostBufferAfter_of_code_ne {r : Response} (h : r.code ≠ errorCode .capacity) (n : Nat)
    (buffer : List Byte) : hostBufferAfter n r buffer = r.out ++ buffer.drop r.out.length :=
  if_neg h

/-- Settles O25: the output fits (`cryptOn_response`), and what follows it is the host's. -/
theorem outputFitsTheHostBuffer : Obligations.OutputFitsTheHostBuffer := by
  intro s t cap data hexec
  obtain ⟨_, r, x, hi, rfl⟩ := exec_eq_next.mp hexec
  have hfits : r.out.length ≤ cap.toNat ∧ (r.status ≠ 0x02 → r.code ≠ errorCode .capacity) := by
    obtain ⟨e, rfl | rfl | rfl, rfl⟩ | ⟨out, rfl, _, hcap⟩ := cryptOn_response hi
    · exact ⟨Nat.zero_le _, fun _ => by decide⟩
    · exact ⟨Nat.zero_le _, fun _ => by decide⟩
    · exact ⟨Nat.zero_le _, fun h => absurd rfl h⟩
    · exact ⟨hcap, fun _ => by simp [Response.code, okStatus, errorCode]⟩
  refine ⟨r, rfl, hfits.1, fun n buffer hbuffer hstatus => ?_⟩
  rw [hostBufferAfter_of_code_ne (hfits.2 hstatus)]
  refine ⟨?_, List.take_left, List.drop_left⟩
  rw [List.length_append, List.length_drop]
  omega

theorem State.after_response_inj {s : State} {r r' : Response} {x y : Instance}
    (h : s.after r x = s.after r' y) : r = r' := by
  have hresp := congrArg State.responses h
  simpa using hresp

/-- CRYPT answers a CapacityError exactly where a test of the capacity says so, if it succeeds
elsewhere. -/
theorem exec_crypt_capacity_iff {s : State} {cap : BitVec 64} {data : List Byte} {p : Prop}
    (he : instanceExists s.sel = true)
    (hbelow : p → cryptOn cap data (s.inst s.sel) = .ok (raise .capacity, s.inst s.sel))
    (habove : ¬ p → ∃ out y, cryptOn cap data (s.inst s.sel) = .ok (respondOk out, y)) :
    p ↔ exec (.crypt cap data) s = .next (s.after ⟨0x02, 0, []⟩ (s.inst s.sel)) := by
  refine ⟨fun hp => exec_of_commandOn he (hbelow hp), fun hexec => ?_⟩
  by_contra hp
  obtain ⟨out, y, hok⟩ := habove hp
  rw [exec_of_commandOn (i := .crypt cap data) he hok, Host.Outcome.next.injEq] at hexec
  have hstatus := congrArg Response.status (State.after_response_inj hexec)
  rw [respondOk_status] at hstatus
  exact absurd hstatus (by decide)

/-- Settles O24: each engine tests the required length first, and succeeds where it fits. -/
theorem capacityErrorBelowTheRequiredLength : Obligations.CapacityErrorBelowTheRequiredLength := by
  intro s cap data rk nr x he
  refine ⟨fun cb off hready => ?_, fun pad start hready => ?_⟩
  · refine exec_crypt_capacity_iff he (fun hcap => ?_) fun hcap => ?_
    · rw [cryptOn_ctrReady hready]
      exact if_pos hcap
    · exact ⟨_, _, cryptOn_ctr hready (not_lt.mp hcap)⟩
  · have hreq : requiredLength pad data.length =
        data.length + if pad = .pkcs5 then 16 - data.length % 16 else 0 := by
      cases pad <;> rfl
    rw [← hreq]
    refine exec_crypt_capacity_iff he (fun hcap => ?_) fun hcap => ?_
    · rw [cryptOn_cbcReady hready]
      exact if_pos hcap
    · obtain ⟨out, cv, hok⟩ := cryptOn_cbc hready (not_lt.mp hcap)
      exact ⟨out, _, hok⟩

end Sys2Proof.Machine
end

section
/-!
Frames and repetition (10_state.md R36, 20_memory.md R58, 60_exceptions.md R281, R287): what a
command leaves unchanged, read off the cases of its function.
-/
namespace Sys2Proof.Machine

/-- What `SetIvCore` writes on each engine. -/
theorem setIvCore_cases {iv : List Byte} {x y : Instance} (h : setIvCore iv x = .ok y) :
    (x.eng = some .ctr ∧ y = { x with
      ivr := some (pad16 iv), cb := some (pad16 iv), off := some 0, ivValid := true }) ∨
    (x.eng = some .cbc ∧ y = { x with
      ivr := some (pad16 iv), cv := some (pad16 iv), ivValid := true }) := by
  cases heng : x.eng with
  | none => simp [setIvCore, heng] at h
  | some eng =>
    cases eng with
    | ctr =>
      cases (setIvCore_ctr heng).symm.trans h
      exact .inl ⟨rfl, by simp [heng]⟩
    | cbc =>
      cases (setIvCore_cbc heng).symm.trans h
      exact .inr ⟨rfl, by simp [heng]⟩

/-- SET_IV with a legal IV on a constructed instance whose engine is known. -/
theorem setIvOn_legal {x : Instance} {iv : List Byte} {eng : Engine} (hc : x.configured = true)
    (heng : x.eng = some eng) (hmin : 1 ≤ iv.length) (hmax : iv.length ≤ 16) :
    ∃ y, setIvOn iv x = .ok (respondOk [], y) ∧ y.configured = true ∧ y.ivValid = true := by
  cases eng with
  | ctr => exact ⟨_, setIvOn_of_setIvCore hc hmin hmax (setIvCore_ctr heng), hc, rfl⟩
  | cbc => exact ⟨_, setIvOn_of_setIvCore hc hmin hmax (setIvCore_cbc heng), hc, rfl⟩

theorem State.after_getLast? (s : State) (r : Response) (x : Instance) :
    (s.after r x).responses.getLast? = some ⟨s.sel, r⟩ :=
  List.getLast?_concat

theorem Instance.Inv.exists_eng {x : Instance} (h : x.Inv) (hc : x.configured = true) :
    ∃ eng, x.eng = some eng := by
  obtain ⟨⟨eng, _, _, heng, _⟩, _⟩ := h.2.1 hc
  exact ⟨eng, heng⟩

/-- Settles O19: a failed CONSTRUCT leaves the reset state and a failed SET_IV no valid IV, which
are the preconditions of O18; a legal SET_IV or CONSTRUCT does not test them. -/
theorem failuresAreReportedUntilRepaired : Obligations.FailuresAreReportedUntilRepaired := by
  intro s eng pad pers key iv iv' cap data hinv he
  refine ⟨fun t hexec hfail => ?_, fun t hc hexec hfail => ?_, fun t i hexec hl hk hmin hmax => ?_⟩
  · obtain ⟨_, r, x, hi, rfl⟩ := exec_eq_next.mp hexec
    obtain ⟨e, _, h⟩ | ⟨_, h⟩ := constructOn_cases eng pad pers key iv
    · cases hi.symm.trans h
      have hreset : ((s.after (raise e) Instance.reset).inst s.sel).configured = false := by
        rw [State.after_inst_same hinv.1]
        rfl
      obtain ⟨hsetIv, hcrypt, _⟩ :=
        preconditionErrorsChangeNothing (s.after (raise e) Instance.reset) he
      exact ⟨hsetIv hreset iv', hcrypt hreset cap data⟩
    · cases hi.symm.trans h
      exact absurd (State.after_getLast? _ _ _) hfail
  · obtain ⟨_, r, x, hi, rfl⟩ := exec_eq_next.mp hexec
    obtain ⟨hnot, _⟩ | ⟨_, e, _, rfl, rfl⟩ | ⟨_, _, rfl, _⟩ := setIvOn_cases hi
    · cases hc.symm.trans hnot
    · obtain ⟨_, heng⟩ := (hinv.2 s.sel).exists_eng hc
      refine ⟨?_, fun hmin hmax => ?_⟩
      · rw [State.after_sel, State.after_inst_same hinv.1]
        exact exec_after (i := .crypt cap data) hinv.1 he
          (cryptOn_of_ivValid_eq_false (x := invalidateIv (s.inst s.sel)) hc rfl cap data)
      · obtain ⟨y, hy, hyc, hyv⟩ :=
          setIvOn_legal (x := invalidateIv (s.inst s.sel)) hc heng hmin hmax
        refine ⟨_, exec_after (i := .setIv iv') hinv.1 he hy, rfl, ?_⟩
        rw [State.after_after_inst hinv.1 he]
        exact ⟨hyc, hyv⟩
    · exact absurd (State.after_getLast? _ _ _) hfail
  · obtain ⟨_, r, x, _, rfl⟩ := exec_eq_next.mp hexec
    obtain ⟨y, hu, hyc, hyv, _⟩ :=
      constructTakesTheConfiguration (s.after r x) eng pad pers key iv he hl hk hmin hmax
    refine ⟨_, hu, ?_⟩
    rw [State.after_sel, State.after_sel, State.after_after_inst hinv.1 he]
    exact ⟨hyc, hyv⟩

theorem setIvCore_setIvCore {iv : List Byte} {x y z : Instance} (hy : setIvCore iv x = .ok y)
    (hz : setIvCore iv y = .ok z) : z = y := by
  obtain ⟨heng, hy⟩ | ⟨heng, hy⟩ := setIvCore_cases hy
  · have heng' : y.eng = some .ctr := by rw [hy, heng]
    cases (setIvCore_ctr heng').symm.trans hz
    rw [hy]
  · have heng' : y.eng = some .cbc := by rw [hy, heng]
    cases (setIvCore_cbc heng').symm.trans hz
    rw [hy]

theorem setIvOn_configured {iv : List Byte} {x y : Instance} {r : Response}
    (h : setIvOn iv x = .ok (r, y)) : y.configured = x.configured := by
  obtain ⟨_, _, rfl⟩ | ⟨_, _, _, _, rfl⟩ | ⟨_, _, _, hcore⟩ := setIvOn_cases h
  · rfl
  · rfl
  · obtain ⟨_, rfl⟩ | ⟨_, rfl⟩ := setIvCore_cases hcore <;> rfl

/-- Settles O20: CONSTRUCT does not read the instance, and `SetIvCore` writes the same values
again. -/
theorem configurationCommandsAreIdempotent : Obligations.ConfigurationCommandsAreIdempotent := by
  intro s t u i hinv hnotCrypt ht hok hu
  obtain ⟨he, r, x, hx, rfl⟩ := exec_eq_next.mp ht
  obtain ⟨_, r', y, hy, rfl⟩ := exec_eq_next.mp hu
  rw [State.after_sel, State.after_inst_same hinv.1] at hy
  rw [State.after_after_inst hinv.1 he, State.after_inst_same hinv.1]
  cases i with
  | construct eng pad pers key iv =>
    cases hx.symm.trans hy
    rfl
  | setIv iv =>
    rw [State.after_getLast?] at hok
    obtain ⟨_, rfl, _⟩ | ⟨_, e, hcheck, rfl, _⟩ | ⟨hc, hcheck, _, hcore⟩ := setIvOn_cases hx
    · cases hok
    · unfold ivCheck at hcheck
      split_ifs at hcheck <;> cases hcheck <;> cases hok
    · obtain ⟨hnot, _⟩ | ⟨_, e, hfail, _⟩ | ⟨_, _, _, hcore'⟩ := setIvOn_cases hy
      · rw [setIvOn_configured hx, hc] at hnot
        cases hnot
      · cases hcheck.symm.trans hfail
      · exact setIvCore_setIvCore hcore hcore'
  | crypt cap data => exact absurd rfl (hnotCrypt cap data)

/-- Settles O39: `perform` writes the selected instance and the responses alone. -/
theorem otherInstancesAreUntouched : Obligations.OtherInstancesAreUntouched := by
  intro i s t hexec
  obtain ⟨_, r, x, _, rfl⟩ := exec_eq_next.mp hexec
  exact ⟨fun k hk => State.after_inst_other hk, rfl, rfl, r, rfl⟩

/-- Settles O40: of the three ways SET_IV can answer, only a loaded IV passes the check, and it is
loaded into the registers of its own engine. -/
theorem setIvFrame : Obligations.SetIvFrame := by
  intro s t iv hinv hexec
  obtain ⟨_, r, y, hy, rfl⟩ := exec_eq_next.mp hexec
  intro x y'
  rw [show y' = y from State.after_inst_same hinv.1]
  obtain ⟨_, _, rfl⟩ | ⟨_, e, hcheck, _, rfl⟩ | ⟨_, _, _, hcore⟩ := setIvOn_cases hy
  · exact ⟨rfl, rfl, rfl, rfl, rfl, rfl, rfl, rfl, fun _ _ => rfl, fun _ _ _ => rfl,
      fun _ _ _ => ⟨rfl, rfl⟩⟩
  · have hillegal (hmin : 1 ≤ iv.length) (hmax : iv.length ≤ 16) : False := by
      cases hcheck.symm.trans (ivCheck_eq_none.mpr ⟨hmin, hmax⟩)
    exact ⟨rfl, rfl, rfl, rfl, rfl, rfl, rfl, rfl, fun h h' => (hillegal h h').elim,
      fun _ h h' => (hillegal h h').elim, fun _ h h' => (hillegal h h').elim⟩
  · obtain ⟨heng, rfl⟩ | ⟨heng, rfl⟩ := setIvCore_cases hcore
    · exact ⟨rfl, rfl, rfl, rfl, rfl, rfl, rfl, rfl, fun _ _ => rfl, fun _ _ _ => rfl,
        fun hcbc => nomatch heng.symm.trans hcbc⟩
    · exact ⟨rfl, rfl, rfl, rfl, rfl, rfl, rfl, rfl, fun _ _ => rfl,
        fun hctr => (nomatch heng.symm.trans hctr), fun _ _ _ => ⟨rfl, rfl⟩⟩

/-- The registers CRYPT can write on a CTR instance. -/
theorem cryptCtr_frame {cap : BitVec 64} {data : List Byte} {x y : Instance} {r : Response}
    (h : cryptCtr cap data x = .ok (r, y)) :
    ∃ cb off ks, y = { x with cb := cb, off := off, ks := ks } ∧
      cb.map nonceOf = x.cb.map nonceOf := by
  obtain ⟨_, rfl⟩ | ⟨_, _, _, hstream⟩ := cryptCtr_cases h
  · exact ⟨_, _, _, rfl, rfl⟩
  · exact ctrStream_frame hstream

/-- Settles O41: an error keeps the instance, and each engine has its own frame. -/
theorem cryptFrame : Obligations.CryptFrame := by
  intro s t cap data hwf hexec
  obtain ⟨_, r, y, hy, rfl⟩ := exec_eq_next.mp hexec
  intro x y'
  rw [show y' = y from State.after_inst_same hwf]
  obtain ⟨_, _, rfl⟩ | ⟨_, _, _, rfl⟩ | ⟨_, _, heng, hctr⟩ | ⟨_, _, heng, hcbc⟩ := cryptOn_cases hy
  · exact ⟨⟨rfl, rfl, rfl, rfl, rfl, rfl, rfl, rfl, rfl, rfl⟩, fun _ => ⟨rfl, rfl⟩,
      fun _ => ⟨rfl, rfl, rfl⟩⟩
  · exact ⟨⟨rfl, rfl, rfl, rfl, rfl, rfl, rfl, rfl, rfl, rfl⟩, fun _ => ⟨rfl, rfl⟩,
      fun _ => ⟨rfl, rfl, rfl⟩⟩
  · obtain ⟨cb, off, ks, rfl, hnonce⟩ := cryptCtr_frame hctr
    exact ⟨⟨rfl, rfl, rfl, rfl, rfl, rfl, rfl, rfl, rfl, rfl⟩, fun _ => ⟨rfl, hnonce⟩,
      fun h => nomatch heng.symm.trans h⟩
  · obtain ⟨⟨cv, rfl⟩, _⟩ := cryptCbc_frame hcbc
    exact ⟨⟨rfl, rfl, rfl, rfl, rfl, rfl, rfl, rfl, rfl, rfl⟩,
      fun h => (nomatch heng.symm.trans h), fun _ => ⟨rfl, rfl, rfl⟩⟩

end Sys2Proof.Machine
end

section
/-!
The invariants of one instance (10_state.md R37): every command that answers keeps them, and under
them every command answers, since they make an instance with a valid IV ready for its engine.
-/
namespace Sys2Proof.Machine

/-! ### What the invariants say of the engines -/

section
variable {x : Instance} (h : x.Inv)
include h

theorem Instance.Inv.ctrRunning (hv : x.ivValid = true) (heng : x.eng = some .ctr) : x.CtrRunning :=
  (h.2.2.2 hv).2.2.1 heng

theorem Instance.Inv.cbcRunning (hv : x.ivValid = true) (heng : x.eng = some .cbc) : x.CbcRunning :=
  (h.2.2.2 hv).2.2.2 heng

theorem Instance.Inv.ctrReady (hv : x.ivValid = true) (heng : x.eng = some .ctr) :
    ∃ rk nr cb off, x.CtrReady rk nr cb off := by
  obtain ⟨hc, _⟩ := h.2.2.2 hv
  obtain ⟨_, key, _, _, _, hnr, hrk⟩ := h.2.1 hc
  obtain ⟨_, cb, off, hcb, hoff, hks⟩ := h.ctrRunning hv heng
  refine ⟨_, _, cb, off, hc, hv, heng, hrk, hnr, hcb, hoff, fun h0 => ?_⟩
  obtain ⟨_, _, _, _, hks⟩ := hks h0
  exact ⟨_, hks⟩

theorem Instance.Inv.cbcReady (hv : x.ivValid = true) (heng : x.eng = some .cbc) :
    ∃ pad rk nr start, x.CbcReady pad rk nr start := by
  obtain ⟨hc, ⟨ivr, hivr⟩, _⟩ := h.2.2.2 hv
  obtain ⟨⟨_, pad, pers, _, hpad, hpers, _⟩, key, _, _, _, hnr, hrk⟩ := h.2.1 hc
  obtain ⟨_, _, _, cv, hcv⟩ := h.cbcRunning hv heng
  cases pers with
  | rollingPerUnit => exact ⟨pad, _, _, ivr, hc, hv, heng, hpad, hrk, hnr, .inl ⟨hpers, hivr⟩⟩
  | persistAcrossCalls => exact ⟨pad, _, _, cv, hc, hv, heng, hpad, hrk, hnr, .inr ⟨hpers, hcv⟩⟩

/-- A CTR instance holds no chaining value, with a valid IV or without one. -/
theorem Instance.Inv.cv_eq_none (heng : x.eng = some .ctr) : x.cv = none := by
  cases hv : x.ivValid with
  | false => exact (h.2.2.1 hv).2.2.2.2
  | true => exact (h.ctrRunning hv heng).1

/-- A CBC instance holds no counter, with a valid IV or without one. -/
theorem Instance.Inv.counter_eq_none (heng : x.eng = some .cbc) :
    x.cb = none ∧ x.off = none ∧ x.ks = none := by
  cases hv : x.ivValid with
  | false =>
    obtain ⟨_, hcb, hoff, hks, _⟩ := h.2.2.1 hv
    exact ⟨hcb, hoff, hks⟩
  | true =>
    obtain ⟨hcb, hoff, hks, _⟩ := h.cbcRunning hv heng
    exact ⟨hcb, hoff, hks⟩

/-! ### SET_IV -/

theorem invalidateIv_inv (hc : x.configured = true) : (invalidateIv x).Inv :=
  ⟨fun hnot => (nomatch hc.symm.trans hnot), fun _ => h.2.1 hc,
    fun _ => ⟨rfl, rfl, rfl, rfl, rfl⟩, nofun⟩

theorem setIvCore_inv {iv : List Byte} {y : Instance} (hc : x.configured = true)
    (hy : setIvCore iv x = .ok y) : y.Inv := by
  obtain ⟨heng, rfl⟩ | ⟨heng, rfl⟩ := setIvCore_cases hy
  · exact ⟨fun hnot => (nomatch hc.symm.trans hnot), fun _ => h.2.1 hc, nofun,
      fun _ => ⟨hc, ⟨_, rfl⟩,
        fun _ => ⟨h.cv_eq_none heng, _, _, rfl, rfl, fun h0 => absurd rfl h0⟩,
        fun hcbc => nomatch heng.symm.trans hcbc⟩⟩
  · obtain ⟨hcb, hoff, hks⟩ := h.counter_eq_none heng
    exact ⟨fun hnot => (nomatch hc.symm.trans hnot), fun _ => h.2.1 hc, nofun,
      fun _ => ⟨hc, ⟨_, rfl⟩, fun hctr => (nomatch heng.symm.trans hctr),
        fun _ => ⟨hcb, hoff, hks, _, rfl⟩⟩⟩

end

/-! ### CRYPT -/

/-- A byte keeps the running state: `KS` is the encryption of the counter block before the last
increment. -/
theorem ctrByte_running {x y : Instance} {p c : Byte} (h : x.CtrRunning)
    (hy : ctrByte x p = .ok (c, y)) : y.CtrRunning := by
  obtain ⟨hcv, cb, off, hcb, hoff, hks⟩ := h
  obtain ⟨off', _, hoff', h0, _, _, rfl⟩ | ⟨rk, nr, cb', _, hrk, hnr, _, _, rfl⟩ := ctrByte_cases hy
  · obtain rfl : off = off' := Option.some_inj.mp (hoff.symm.trans hoff')
    exact ⟨hcv, cb, _, hcb, rfl, fun _ => hks h0⟩
  · exact ⟨hcv, _, _, rfl, rfl, fun _ => ⟨rk, nr, hrk, hnr, by rw [previousCounterBlock_inc64]⟩⟩

theorem ctrStream_running {x y : Instance} {data out : List Byte} (h : x.CtrRunning)
    (hy : ctrStream x data = .ok (out, y)) : y.CtrRunning := by
  induction data generalizing x out with
  | nil => cases hy; exact h
  | cons p rest ih =>
    obtain ⟨c, z, cs, hbyte, hrest, _⟩ := ctrStream_cons_ok.mp hy
    exact ih (ctrByte_running h hbyte) hrest

theorem cryptCtr_inv {cap : BitVec 64} {data : List Byte} {x y : Instance} {r : Response}
    (h : x.Inv) (hv : x.ivValid = true) (heng : x.eng = some .ctr)
    (hy : cryptCtr cap data x = .ok (r, y)) : y.Inv := by
  obtain ⟨_, rfl⟩ | ⟨_, _, _, hstream⟩ := cryptCtr_cases hy
  · exact h
  · have hrun := ctrStream_running (h.ctrRunning hv heng) hstream
    obtain ⟨hc, hivr, _⟩ := h.2.2.2 hv
    obtain ⟨_, _, _, rfl, _⟩ := ctrStream_frame hstream
    exact ⟨fun hnot => (nomatch hc.symm.trans hnot), fun _ => h.2.1 hc,
      fun hnot => (nomatch hv.symm.trans hnot),
      fun _ => ⟨hc, hivr, fun _ => hrun, fun hcbc => nomatch heng.symm.trans hcbc⟩⟩

/-- On a ready CBC instance a call answers, and leaves a value in `CV` if it changes it. -/
theorem cryptOn_cbcReady_cases {x : Instance} {pad : Padding} {rk : List Word} {nr : BitVec 4}
    {start : Block} (h : x.CbcReady pad rk nr start) (cap : BitVec 64) (data : List Byte) :
    cryptOn cap data x = .ok (raise .capacity, x) ∨
    ∃ out cv, cryptOn cap data x = .ok (respondOk out, { x with cv := some cv }) := by
  by_cases hcap : cap.toNat < requiredLength pad data.length
  · exact .inl ((cryptOn_cbcReady h cap data).trans (if_pos hcap))
  · exact .inr (cryptOn_cbc h (not_lt.mp hcap))

theorem cryptOn_ctrReady_cases {x : Instance} {rk : List Word} {nr : BitVec 4} {cb : Block}
    {off : BitVec 4} (h : x.CtrReady rk nr cb off) (cap : BitVec 64) (data : List Byte) :
    cryptOn cap data x = .ok (raise .capacity, x) ∨
    ∃ out y, cryptOn cap data x = .ok (respondOk out, y) := by
  by_cases hcap : cap.toNat < data.length
  · exact .inl ((cryptOn_ctrReady h cap data).trans (if_pos hcap))
  · exact .inr ⟨_, _, cryptOn_ctr h (not_lt.mp hcap)⟩

theorem Instance.Inv.with_cv {x : Instance} (h : x.Inv) (hv : x.ivValid = true)
    (heng : x.eng = some .cbc) (cv : Block) : { x with cv := some cv }.Inv := by
  obtain ⟨hc, hivr, _⟩ := h.2.2.2 hv
  obtain ⟨hcb, hoff, hks⟩ := h.counter_eq_none heng
  exact ⟨fun hnot => (nomatch hc.symm.trans hnot), fun _ => h.2.1 hc,
    fun hnot => (nomatch hv.symm.trans hnot),
    fun _ => ⟨hc, hivr, fun hctr => (nomatch heng.symm.trans hctr),
      fun _ => ⟨hcb, hoff, hks, _, rfl⟩⟩⟩

theorem cryptOn_inv {cap : BitVec 64} {data : List Byte} {x y : Instance} {r : Response} (h : x.Inv)
    (hy : cryptOn cap data x = .ok (r, y)) : y.Inv := by
  obtain ⟨_, _, rfl⟩ | ⟨_, _, _, rfl⟩ | ⟨_, hv, heng, hctr⟩ | ⟨_, hv, heng, _⟩ := cryptOn_cases hy
  · exact h
  · exact h
  · exact cryptCtr_inv h hv heng hctr
  · obtain ⟨_, _, _, _, hready⟩ := h.cbcReady hv heng
    obtain hcap | ⟨_, cv, hok⟩ := cryptOn_cbcReady_cases hready cap data
    · cases hy.symm.trans hcap
      exact h
    · cases hy.symm.trans hok
      exact h.with_cv hv heng cv

/-! ### Every command -/

theorem commandOn_inv {i : Instr} {x y : Instance} {r : Response} (h : x.Inv)
    (hy : commandOn i x = .ok (r, y)) : y.Inv := by
  cases i with
  | construct eng pad pers key iv =>
    obtain ⟨e, _, hfail⟩ | ⟨hcheck, hok⟩ := constructOn_cases eng pad pers key iv
    · cases hy.symm.trans hfail
      exact Instance.reset_inv
    · cases hy.symm.trans hok
      obtain ⟨hk, hl, _⟩ := constructCheck_eq_none.mp hcheck
      exact constructed_inv hk hl
  | setIv iv =>
    obtain ⟨_, _, rfl⟩ | ⟨hc, _, _, _, rfl⟩ | ⟨hc, _, _, hcore⟩ := setIvOn_cases hy
    · exact h
    · exact invalidateIv_inv h hc
    · exact setIvCore_inv h hc hcore
  | crypt cap data => exact cryptOn_inv h hy

/-- No rule reads a register without a value. -/
theorem commandOn_answers (i : Instr) {x : Instance} (h : x.Inv) :
    ∃ r y, commandOn i x = .ok (r, y) := by
  cases i with
  | construct eng pad pers key iv =>
    obtain ⟨e, _, hfail⟩ | ⟨_, hok⟩ := constructOn_cases eng pad pers key iv
    · exact ⟨_, _, hfail⟩
    · exact ⟨_, _, hok⟩
  | setIv iv =>
    by_cases hc : x.configured = true
    · cases hcheck : ivCheck iv.length with
      | some e => exact ⟨_, _, setIvOn_of_ivCheck_eq_some hc hcheck⟩
      | none =>
        obtain ⟨hmin, hmax⟩ := ivCheck_eq_none.mp hcheck
        obtain ⟨eng, heng⟩ := h.exists_eng hc
        obtain ⟨y, hy, _⟩ := setIvOn_legal hc heng hmin hmax
        exact ⟨_, y, hy⟩
    · exact ⟨_, _, setIvOn_of_configured_eq_false (Bool.eq_false_iff.mpr hc) iv⟩
  | crypt cap data =>
    by_cases hc : x.configured = true
    · by_cases hv : x.ivValid = true
      · obtain ⟨eng, heng⟩ := h.exists_eng hc
        cases eng with
        | ctr =>
          obtain ⟨_, _, _, _, hready⟩ := h.ctrReady hv heng
          obtain hcap | ⟨_, _, hok⟩ := cryptOn_ctrReady_cases hready cap data
          · exact ⟨_, _, hcap⟩
          · exact ⟨_, _, hok⟩
        | cbc =>
          obtain ⟨_, _, _, _, hready⟩ := h.cbcReady hv heng
          obtain hcap | ⟨_, _, hok⟩ := cryptOn_cbcReady_cases hready cap data
          · exact ⟨_, _, hcap⟩
          · exact ⟨_, _, hok⟩
      · exact ⟨_, _, cryptOn_of_ivValid_eq_false hc (Bool.eq_false_iff.mpr hv) cap data⟩
    · exact ⟨_, _, cryptOn_of_configured_eq_false (Bool.eq_false_iff.mpr hc) cap data⟩

/-- Settles O44: the command's function answers on the selected instance (`commandOn_answers`). -/
theorem noCommandReadsARegisterWithoutValue : Obligations.NoCommandReadsARegisterWithoutValue := by
  intro i s h he
  obtain ⟨r, y, hy⟩ := commandOn_answers i (h.2 s.sel)
  exact ⟨_, exec_of_commandOn he hy⟩

/-- Settles O46: the engine is read first, and `KS` at the first byte. -/
theorem readingNoValueFaults : Obligations.ReadingNoValueFaults := by
  intro s cap data x he hc hv
  refine ⟨fun heng => ?_, fun heng hks hne hcap off hoff h0 => ?_⟩
  · rw [exec_eq_perform]
    refine perform_eq_fault.mpr ⟨he, ?_⟩
    rw [commandOn, cryptOn, if_pos hc, if_pos hv, heng, need_none]
  · obtain ⟨p, rest, rfl⟩ := List.exists_cons_of_ne_nil hne
    have hbyte : ctrByte x p = .error (.noValue .ks) := by
      rw [ctrByte, hoff, need_some]
      simp only
      rw [if_neg h0, xorByte, hks, need_none]
    rw [exec_eq_perform]
    refine perform_eq_fault.mpr ⟨he, ?_⟩
    rw [commandOn, cryptOn_of_eng_eq_ctr hc hv heng, cryptCtr, if_neg hcap.not_gt, ctrStream, hbyte]

end Sys2Proof.Machine
end

section
/-!
The invariants of the block along its steps (10_state.md R37). A whole record performs one function,
which answers on every instance that meets the invariants and keeps them
(`exists_function_of_recordWhole`); the statements about steps follow from that.
-/
namespace Sys2Proof.Machine

/-- Settles O42: no instance is listed, and the reset state of an instance meets its invariants. -/
theorem resetMeetsTheInvariants : Obligations.ResetMeetsTheInvariants :=
  ⟨rfl, fun _ => Instance.reset_inv⟩

theorem State.after_inv {s : State} {r : Response} {y : Instance} (h : s.Inv)
    (he : instanceExists s.sel = true) (hy : y.Inv) : (s.after r y).Inv := by
  refine ⟨State.after_tableWf h.1 he, fun k => ?_⟩
  by_cases hk : k = s.sel
  · rw [hk, State.after_inst_same h.1]
    exact hy
  · rw [State.after_inst_other hk]
    exact h.2 k

/-- The function `f` is performed by a record: on the instance it is issued to, whatever the state.
-/
def Performs (record : List Byte) (f : Instance → Except Fault (Response × Instance)) : Prop :=
  ∀ {s : State} {k : Nat} {queue : List HostEvent},
    s.input = .command k record :: queue → step s = perform (s.issue k queue) f

/-- The function answers on every instance that meets the invariants, and keeps them. -/
def KeepsInv (f : Instance → Except Fault (Response × Instance)) : Prop :=
  ∀ x : Instance, x.Inv → ∃ r y, f x = .ok (r, y) ∧ y.Inv

theorem commandOn_keepsInv (i : Instr) : KeepsInv (commandOn i) := by
  intro x h
  obtain ⟨r, y, hy⟩ := commandOn_answers i h
  exact ⟨r, y, hy, commandOn_inv h hy⟩

theorem exists_function_of_recordWhole {record : List Byte} (h : recordWhole record = true) :
    ∃ f, KeepsInv f ∧ Performs record f := by
  cases hd : decode record with
  | ok p =>
    exact ⟨commandOn p.1, commandOn_keepsInv p.1,
      fun hin => (step_of_decode_eq_ok hin hd).trans (exec_eq_perform _ _)⟩
  | error e =>
    cases hc : illegalCause e with
    | some c =>
      exact ⟨fun x => .ok (raise c, x), fun x hx => ⟨_, x, rfl, hx⟩, fun hin =>
        (step_of_decode_eq_error hin hd).trans (rejectRecord_of_illegalCause_eq_some hc _)⟩
    | none =>
      cases e <;> cases hc
      rw [recordWhole, hd] at h
      cases h

/-- A record that is not whole has no step. -/
theorem step_of_recordWhole_eq_false {s : State} {k : Nat} {record : List Byte}
    {queue : List HostEvent} (hin : s.input = .command k record :: queue)
    (h : recordWhole record = false) : step s = .refused .incompleteRecord := by
  cases hd : decode record with
  | ok p =>
    rw [recordWhole, hd] at h
    cases h
  | error e =>
    have he : illegalCause e = none := by
      rw [recordWhole, hd] at h
      cases e with
      | incomplete => rfl
      | reservedOpcode | reservedBits | reservedPad => cases h
    rw [step_of_decode_eq_error hin hd, rejectRecord_of_illegalCause_eq_none he]

theorem State.issue_inv {s : State} (h : s.Inv) (k : Nat) (queue : List HostEvent) :
    (s.issue k queue).Inv := h

theorem platformReset_inv (s : State) : (platformReset s).Inv :=
  ⟨rfl, fun _ => Instance.reset_inv⟩

/-- Settles O43: idling keeps the state, a reset clears the table, and a record that answers
performs a function that keeps the invariants. -/
theorem everyStepKeepsTheInvariants : Obligations.EveryStepKeepsTheInvariants := by
  intro s t h hstep
  cases hin : s.input with
  | nil =>
    cases (stepsOutsideTheInterface.1 s hin).symm.trans hstep
    exact h
  | cons event queue =>
    cases event with
    | platformReset =>
      cases (step_platformReset hin).symm.trans hstep
      exact platformReset_inv _
    | command k record =>
      cases hw : recordWhole record with
      | false => cases (step_of_recordWhole_eq_false hin hw).symm.trans hstep
      | true =>
        obtain ⟨f, hkeeps, hperforms⟩ := exists_function_of_recordWhole hw
        obtain ⟨he, r, y, hy, rfl⟩ := perform_eq_next.mp ((hperforms hin).symm.trans hstep)
        obtain ⟨_, _, hy', hinv⟩ := hkeeps _ (h.2 k)
        cases hy.symm.trans hy'
        exact State.after_inv (State.issue_inv h k queue) he hinv

theorem State.inputAllowed_cons {s : State} {event : HostEvent} {queue : List HostEvent}
    (hin : s.input = event :: queue) (h : s.inputAllowed = true) :
    eventAllowed event = true ∧ queue.all eventAllowed = true := by
  rwa [State.inputAllowed, hin, List.all_cons, Bool.and_eq_true] at h

/-- One step of an allowed queue answers, and leaves an allowed queue. -/
theorem step_of_inputAllowed {s : State} (h : s.Inv) (ha : s.inputAllowed = true) :
    ∃ t, step s = .next t ∧ t.inputAllowed = true := by
  cases hin : s.input with
  | nil => exact ⟨s, stepsOutsideTheInterface.1 s hin, ha⟩
  | cons event queue =>
    obtain ⟨hevent, hqueue⟩ := State.inputAllowed_cons hin ha
    cases event with
    | platformReset => exact ⟨_, step_platformReset hin, hqueue⟩
    | command k record =>
      rw [eventAllowed, Bool.and_eq_true] at hevent
      obtain ⟨f, hkeeps, hperforms⟩ := exists_function_of_recordWhole hevent.2
      obtain ⟨r, y, hy, _⟩ := hkeeps _ (h.2 k)
      exact ⟨_, (hperforms hin).trans (perform_ok hevent.1 hy), hqueue⟩

theorem run_succ_of_next {M : Host.Core} {s t : M.State} (h : M.step s = .next t) (n : Nat) :
    M.run (n + 1) s = M.run n t := by
  rw [Host.Core.run, h]

theorem run_succ_of_refused {M : Host.Core} {s : M.State} {r : M.Refusal}
    (h : M.step s = .refused r) (n : Nat) : M.run (n + 1) s = .refused r := by
  rw [Host.Core.run, h]

theorem run_succ_of_step_eq_next {s t : State} (h : step s = .next t) (n : Nat) :
    core.run (n + 1) s = core.run n t :=
  run_succ_of_next (M := core) h n

theorem run_succ_of_step_eq_refused {s : State} {r : Refusal} (h : step s = .refused r) (n : Nat) :
    core.run (n + 1) s = .refused r :=
  run_succ_of_refused (M := core) h n

/-- Settles O45, by induction on the number of steps. -/
theorem theMachineNeverStops : Obligations.TheMachineNeverStops := by
  intro n
  induction n with
  | zero => exact fun s h ha => ⟨s, rfl, h, ha⟩
  | succ n ih =>
    intro s h ha
    obtain ⟨t, hstep, hta⟩ := step_of_inputAllowed h ha
    rw [run_succ_of_step_eq_next hstep]
    exact ih t (everyStepKeepsTheInvariants s t h hstep) hta

/-! ### Commands to different instances -/

theorem storeInstance_comm {t : List (Nat × Instance)} {j k : Nat} (x y : Instance)
    (h : tableWf 0 t = true) (hj : instanceExists j = true) (hk : instanceExists k = true)
    (hjk : j ≠ k) :
    storeInstance k y (storeInstance j x t) = storeInstance j x (storeInstance k y t) := by
  have hjx := tableWf_storeInstance (x := x) h (Nat.zero_le j) hj
  have hky := tableWf_storeInstance (x := y) h (Nat.zero_le k) hk
  refine table_ext (tableWf_storeInstance hjx (Nat.zero_le k) hk)
    (tableWf_storeInstance hky (Nat.zero_le j) hj) fun m => ?_
  by_cases hmk : m = k
  · rw [hmk, lookupInstance_storeInstance_same hjx, lookupInstance_storeInstance_other hjk.symm,
      lookupInstance_storeInstance_same h]
  · by_cases hmj : m = j
    · rw [hmj, lookupInstance_storeInstance_other hjk, lookupInstance_storeInstance_same h,
        lookupInstance_storeInstance_same hky]
    · simp only [lookupInstance_storeInstance_other hmk, lookupInstance_storeInstance_other hmj]

section
variable {s : State} {j k : Nat} {queue : List HostEvent} {a b : List Byte}
  {f g : Instance → Except Fault (Response × Instance)}
  (hf : Performs a f) (hg : Performs b g)
include hf hg

/-- Two records one after the other, for different instances of the block: the second finds
its instance as it was. -/
theorem run_two_of_performs (hjk : j ≠ k) (hj : instanceExists j = true)
    (hk : instanceExists k = true) {r r' : Response} {x y : Instance}
    (hx : f (s.inst j) = .ok (r, x)) (hy : g (s.inst k) = .ok (r', y)) :
    core.run 2 { s with input := .command j a :: .command k b :: queue } =
      .next (State.after (State.issue
        (State.after (State.issue s j (.command k b :: queue)) r x) k queue) r' y) := by
  have hfirst := run_succ_of_step_eq_next ((hf (s := { s with
    input := .command j a :: .command k b :: queue }) rfl).trans (perform_ok hj hx)) 1
  have hother := (congrArg g (State.after_inst_other (s := s.issue j (.command k b :: queue))
    (r := r) (x := x) hjk.symm)).trans hy
  exact hfirst.trans (run_succ_of_step_eq_next
    (s := (s.issue j (.command k b :: queue)).after r x) ((hg rfl).trans (perform_ok hk hother)) 0)

theorem run_two_of_absent_second (hj : instanceExists j = true) (hk : instanceExists k = false)
    {r : Response} {x : Instance} (hx : f (s.inst j) = .ok (r, x)) :
    core.run 2 { s with input := .command j a :: .command k b :: queue } =
      .refused (.noSuchInstance k) := by
  have hfirst := run_succ_of_step_eq_next ((hf (s := { s with
    input := .command j a :: .command k b :: queue }) rfl).trans (perform_ok hj hx)) 1
  exact hfirst.trans (run_succ_of_step_eq_refused
    (s := (s.issue j (.command k b :: queue)).after r x)
    ((hg rfl).trans (perform_eq_refused.mpr ⟨hk, rfl⟩)) 0)

end

/-- Responses of different instances may change places. -/
theorem answersOf_swap {s t : State} {as : List Answer} {p q : Answer} (hpq : p.inst ≠ q.inst)
    (hs : s.responses = as ++ [p] ++ [q]) (ht : t.responses = as ++ [q] ++ [p]) (m : Nat) :
    s.answersOf m = t.answersOf m := by
  rw [State.answersOf, State.answersOf, hs, ht]
  by_cases hp : p.inst = m
  · have hq : q.inst ≠ m := fun hq => hpq (hp.trans hq.symm)
    simp [hp, hq]
  · by_cases hq : q.inst = m <;> simp [hp, hq]

/-- Settles O47: each record's function sees its own instance alone, so the two writes and the two
responses change places. -/
theorem commandsToDifferentInstancesCommute : Obligations.CommandsToDifferentInstancesCommute := by
  intro s j k a b queue h hjk hj ha hb one two
  obtain ⟨f, hfkeeps, hf⟩ := exists_function_of_recordWhole ha
  obtain ⟨g, hgkeeps, hg⟩ := exists_function_of_recordWhole hb
  obtain ⟨r, x, hx, _⟩ := hfkeeps _ (h.2 j)
  obtain ⟨r', y, hy, _⟩ := hgkeeps _ (h.2 k)
  split_ifs with hk
  · exact ⟨_, _, run_two_of_performs hf hg hjk hj hk hx hy,
      run_two_of_performs hg hf hjk.symm hk hj hy hx, storeInstance_comm x y h.1 hj hk hjk,
      answersOf_swap hjk rfl rfl⟩
  · have hk := Bool.eq_false_iff.mpr hk
    exact ⟨run_two_of_absent_second hf hg hj hk hx,
      run_succ_of_step_eq_refused ((hg rfl).trans (perform_eq_refused.mpr ⟨hk, rfl⟩)) 1⟩

end Sys2Proof.Machine
end

section
/-!
The cipher is a permutation of the blocks (40_aes_core.md R112-R117). Each transformation of a round
is injective: AddRoundKey XORs, SubBytes has the S-box under it, ShiftRows moves cells, and
MixColumns taken four times is the identity. On the finite type of blocks injective is bijective.
-/
namespace Sys2Proof.Machine

/-! ### The field and the S-box -/

/-- Settles O48, from the laws of `gmul`; the two products are computed. -/
theorem fieldMultiplicationLaws : Obligations.FieldMultiplicationLaws :=
  ⟨gmul_comm, gmul_assoc, gmul_xor,
    fun a => ⟨gmul_one a, gmul_zero a, (gmul_comm a 2).trans (two_gmul a)⟩, by decide, by decide⟩

theorem ginv_ginv (a : Byte) : ginv (ginv a) = a := by
  by_cases h : a = 0
  · rw [h, ginv_zero, ginv_zero]
  · exact (eq_ginv_of_gmul_eq_one ((gmul_comm _ _).trans (gmul_ginv h))).symm

theorem sboxAffine_injective : Function.Injective sboxAffine :=
  Finite.injective_iff_surjective.mpr fun b => ⟨_, sboxAffine_sboxAffineInverse b⟩

theorem sbox_injective : Function.Injective sbox := by
  intro a b h
  rw [sbox_eq_sboxAffine_ginv, sbox_eq_sboxAffine_ginv] at h
  rw [← ginv_ginv a, sboxAffine_injective h, ginv_ginv]

/-- Settles O50: the affine map and the inverse are injective; the fixed points are looked for in
the whole table. -/
theorem sboxIsABijectionWithoutFixedPoint : Obligations.SboxIsABijectionWithoutFixedPoint :=
  ⟨Finite.injective_iff_bijective.mp sbox_injective, by decide +kernel⟩

/-! ### The transformations of a round -/

theorem block_ext_cell {s t : Block} (h : ∀ r < 4, ∀ c < 4, cell s r c = cell t r c) : s = t := by
  refine block_ext fun i hi => ?_
  have hcell := h (i % 4) (Nat.mod_lt _ (by decide)) (i / 4) (by omega)
  rwa [cell, cell, Nat.mod_add_div] at hcell

theorem addRoundKey_injective (rk : List Word) (n : Nat) :
    Function.Injective fun s => addRoundKey rk s n := by
  intro s t h
  refine block_ext_cell fun r hr c hc => ?_
  have hcell := congrArg (cell · r c) h
  simp only [addRoundKey, cell_ofCells _ hr hc] at hcell
  exact (BitVec.xor_left_inj _).mp hcell

theorem subBytes_injective : Function.Injective subBytes := by
  intro s t h
  refine block_ext_cell fun r hr c hc => ?_
  have hcell := congrArg (cell · r c) h
  simp only [subBytes, cell_ofCells _ hr hc] at hcell
  exact sbox_injective hcell

theorem shiftRows_injective : Function.Injective shiftRows := by
  intro s t h
  refine block_ext_cell fun r hr c hc => ?_
  have hc' : (c + (4 - r)) % 4 < 4 := Nat.mod_lt _ (by decide)
  have hback : ((c + (4 - r)) % 4 + r) % 4 = c := by omega
  have hcell := congrArg (cell · r ((c + (4 - r)) % 4)) h
  simpa only [shiftRows, cell_ofCells _ hr hc', hback] using hcell

theorem xor_left_comm (a b c : Byte) : a ^^^ (b ^^^ c) = b ^^^ (a ^^^ c) := by ac_rfl

theorem xor_cancel_left (a b : Byte) : a ^^^ (a ^^^ b) = b := by
  rw [← BitVec.xor_assoc, BitVec.xor_self, BitVec.zero_xor]

/-- A mixed cell, from the four cells of its column. -/
def mixBytes (a b c d : Byte) : Byte := xtime a ^^^ (xtime b ^^^ b) ^^^ c ^^^ d

theorem cell_mixColumns (s : Block) {r c : Nat} (hr : r < 4) (hc : c < 4) :
    cell (mixColumns s) r c = mixBytes (cell s r c) (cell s ((r + 1) % 4) c)
      (cell s ((r + 2) % 4) c) (cell s ((r + 3) % 4) c) :=
  cell_ofCells _ hr hc

theorem mixBytes_mixBytes (a b c d : Byte) :
    mixBytes (mixBytes a b c d) (mixBytes b c d a) (mixBytes c d a b) (mixBytes d a b c) =
      a ^^^ (xtime (xtime a) ^^^ xtime (xtime c)) := by
  simp only [mixBytes, xtime_xor, BitVec.xor_assoc, BitVec.xor_comm, xor_left_comm, xor_cancel_left]

/-- MixColumns twice: each cell and its neighbour two rows on. -/
theorem cell_mixColumns_mixColumns (s : Block) {r c : Nat} (hr : r < 4) (hc : c < 4) :
    cell (mixColumns (mixColumns s)) r c =
      cell s r c ^^^ (xtime (xtime (cell s r c)) ^^^ xtime (xtime (cell s ((r + 2) % 4) c))) := by
  have hmod (n : Nat) : n % 4 < 4 := Nat.mod_lt _ (by decide)
  have hwrap (m : Nat) : (r + (m + 4)) % 4 = (r + m) % 4 := by omega
  have hself : (r + 0) % 4 = r := Nat.mod_eq_of_lt hr
  rw [cell_mixColumns _ hr hc, cell_mixColumns _ hr hc, cell_mixColumns _ (hmod _) hc,
    cell_mixColumns _ (hmod _) hc, cell_mixColumns _ (hmod _) hc]
  simp only [Nat.mod_add_mod, Nat.add_assoc, Nat.reduceAdd, hwrap 0, hwrap 1, hwrap 2, hself]
  exact mixBytes_mixBytes _ _ _ _

theorem mixColumns_injective : Function.Injective mixColumns := by
  have hfour (s : Block) : mixColumns (mixColumns (mixColumns (mixColumns s))) = s := by
    refine block_ext_cell fun r hr c hc => ?_
    have hr' : (r + 2) % 4 < 4 := Nat.mod_lt _ (by decide)
    have hback : ((r + 2) % 4 + 2) % 4 = r := by omega
    rw [cell_mixColumns_mixColumns _ hr hc, cell_mixColumns_mixColumns _ hr hc,
      cell_mixColumns_mixColumns _ hr' hc, hback]
    generalize cell s r c = a
    generalize cell s ((r + 2) % 4) c = b
    simp only [xtime_xor, BitVec.xor_comm, xor_left_comm, BitVec.xor_self, BitVec.xor_zero]
  intro s t h
  rw [← hfour s, h, hfour t]

/-! ### The rounds -/

theorem aesRound_injective (rk : List Word) (r : Nat) :
    Function.Injective fun s => aesRound rk s r :=
  (addRoundKey_injective rk r).comp
    (mixColumns_injective.comp (shiftRows_injective.comp subBytes_injective))

theorem aesFinalRound_injective (rk : List Word) (nr : Nat) :
    Function.Injective (aesFinalRound rk nr) :=
  (addRoundKey_injective rk nr).comp (shiftRows_injective.comp subBytes_injective)

theorem aesRounds_succ (rk : List Word) (n r : Nat) (s : Block) :
    aesRounds rk (n + 1) r s = aesRounds rk n (r + 1) (aesRound rk s r) := by
  rw [aesRounds, withValue_eq]

theorem aesRounds_injective (rk : List Word) (n r : Nat) :
    Function.Injective (aesRounds rk n r) := by
  induction n generalizing r with
  | zero => exact fun _ _ h => h
  | succ n ih =>
    intro s t h
    rw [aesRounds_succ, aesRounds_succ] at h
    exact aesRound_injective rk r (ih (r + 1) h)

theorem aesEncrypt_eq (rk : List Word) (nr : Nat) (block : Block) :
    aesEncrypt rk nr block =
      aesFinalRound rk nr (aesRounds rk (nr - 1) 1 (addRoundKey rk block 0)) := by
  rw [aesEncrypt, withValue_eq, withValue_eq]

/-- Settles O53: the cipher is a composition of injective transformations. -/
theorem encryptionIsAPermutation : Obligations.EncryptionIsAPermutation := by
  intro rk nr
  refine Finite.injective_iff_bijective.mp fun s t h => ?_
  rw [aesEncrypt_eq, aesEncrypt_eq] at h
  exact addRoundKey_injective rk 0 (aesRounds_injective rk _ 1 (aesFinalRound_injective rk nr h))

/-! ### The examples of FIPS-197 -/

/-- Settles O54, by evaluation in the kernel. -/
theorem fipsExamples : Obligations.FipsExamples := by
  refine ⟨?_, ?_, ?_⟩ <;> decide +kernel

end Sys2Proof.Machine
end

section
/-!
The metadata record and the assembler (44_metadata.md R242-R249, 30_encoding.md R88, R89).
-/
namespace Sys2Proof.Machine

/-! ### Cipher spans -/

theorem spansLength_cons (e : SubsampleEntry) (es : List SubsampleEntry) :
    spansLength (e :: es) = spanLength e + spansLength es := by
  rw [spansLength, List.map_cons, List.sum_cons, spansLength]

/-- Where a sample has room for the entries, each span has its full length. -/
theorem cipherSpansFrom_flatten_length {sample : List Byte} {off : Nat} {es : List SubsampleEntry}
    (h : off + spansLength es ≤ sample.length) :
    (cipherSpansFrom sample off es).flatten.length = (es.map fun e => e.cipherBytes.toNat).sum := by
  induction es generalizing off with
  | nil => rfl
  | cons e es ih =>
    rw [spansLength_cons] at h
    rw [cipherSpansFrom, List.flatten_cons, List.length_append, ih (by omega), List.map_cons,
      List.sum_cons, List.length_take, List.length_drop]
    rw [spanLength] at h
    omega

theorem spansLength_eq_of_metaValid {m : SampleMeta} {n : Nat} (h : metaValid m n = true) :
    spansLength m.subsamples = n := by
  simp only [metaValid, Bool.and_eq_true, decide_eq_true_eq] at h
  obtain ⟨⟨_, hspans⟩, _⟩ := h
  exact hspans

theorem iv_length_of_metaValid {m : SampleMeta} {n : Nat} (h : metaValid m n = true) :
    1 ≤ m.iv.length ∧ m.iv.length ≤ 16 := by
  simp only [metaValid, Bool.and_eq_true, decide_eq_true_eq] at h
  obtain ⟨⟨⟨⟨_, hiv⟩, _⟩, _⟩, _⟩ := h
  exact hiv

theorem subsamples_length_of_metaValid {m : SampleMeta} {n : Nat} (h : metaValid m n = true) :
    m.subsamples.length ≤ 65535 := by
  simp only [metaValid, Bool.and_eq_true, decide_eq_true_eq] at h
  obtain ⟨⟨⟨_, hcount⟩, _⟩, _⟩ := h
  exact hcount

/-- Settles O55: a valid record's spans fill the sample. -/
theorem cipherStreamLength : Obligations.CipherStreamLength :=
  fun _ _ h => cipherSpansFrom_flatten_length (by rw [Nat.zero_add, spansLength_eq_of_metaValid h])

theorem cipherSpansFrom_getD (sample : List Byte) (off : Nat) {es : List SubsampleEntry} {j : Nat}
    (h : j < es.length) :
    (cipherSpansFrom sample off es).getD j [] =
      (sample.drop (off + spanOffset es j + es[j].clearBytes.toNat)).take
        es[j].cipherBytes.toNat := by
  induction es generalizing off j with
  | nil => cases h
  | cons e es ih =>
    cases j with
    | zero => rfl
    | succ j =>
      rw [cipherSpansFrom, List.getD_cons_succ, ih _ (Nat.lt_of_succ_lt_succ h),
        List.getElem_cons_succ, spanOffset, spanOffset, List.take_succ_cons, spansLength_cons,
        Nat.add_assoc off]

/-- Settles O56, by induction on the entries before span `j`. -/
theorem cipherSpansLieAtTheirOffsets : Obligations.CipherSpansLieAtTheirOffsets := by
  intro m sample j h
  have hspan := cipherSpansFrom_getD sample 0 h
  rwa [Nat.zero_add] at hspan

/-- Settles O59: the block's place in its run is the remainder. -/
theorem patternEncryptsTheFirstBlocksOfEachRun :
    Obligations.PatternEncryptsTheFirstBlocksOfEachRun := by
  intro n m q i hi
  have hplace : (q * (n + m) + i) % (n + m) = i := by
    rw [Nat.add_comm, Nat.add_mul_mod_self_right, Nat.mod_eq_of_lt hi]
  rw [patternEncrypts, if_neg (by omega), hplace, decide_eq_true_iff]

/-! ### The assembler -/

theorem wf_of_assembleLine_eq_some {line : List Char} {i : Instr} (h : assembleLine line = some i) :
    i.wf = true := by
  simp only [assembleLine] at h
  split at h
  · rw [Option.ite_none_right_eq_some] at h
    obtain ⟨hwf, heq⟩ := h
    cases heq
    exact hwf
  · cases h

theorem toNat_pseudoCrypt_capacity {data : List Byte} (h : data.length < 2 ^ 63) :
    (BitVec.ofNat 64 (data.length + 16)).toNat = data.length + 16 := by
  rw [BitVec.toNat_ofNat]
  omega

/-- Settles O60: the assembler's last test is well-formedness, and `len + 16` fits 64 bits. -/
theorem assembledCommandsEncode : Obligations.AssembledCommandsEncode := by
  refine ⟨fun _ _ => wf_of_assembleLine_eq_some, fun _ _ => rfl, fun _ _ _ => rfl, fun data h => ?_⟩
  have hcap := toNat_pseudoCrypt_capacity (data := data) (by omega)
  exact ⟨_, rfl, hcap, fun pad => (requiredLength_le pad data.length).trans_eq hcap.symm⟩

end Sys2Proof.Machine
end

section
/-!
Sequences of commands to one instance (20_memory.md R60). `CommandsOn` follows its registers alone;
`execAll_of_commandsOn` carries that to the state. A sequence of CRYPTs is then one
stream (42_ctr_engine.md R178) or one chain (43_cbc_engine.md R217).
-/
namespace Sys2Proof.Machine

/-- The commands, issued in order to an instance with the registers `x`, return the responses and
leave the registers `y`. -/
inductive CommandsOn : List Instr → Instance → List Response → Instance → Prop
  | nil (x : Instance) : CommandsOn [] x [] x
  | cons {i : Instr} {is : List Instr} {x y z : Instance} {r : Response} {rs : List Response} :
    commandOn i x = .ok (r, y) → CommandsOn is y rs z → CommandsOn (i :: is) x (r :: rs) z

theorem execAll_cons_of_exec {i : Instr} {is : List Instr} {s t : State} (h : exec i s = .next t) :
    execAll (i :: is) s = execAll is t := by
  rw [execAll, h]

theorem execAll_of_commandsOn {is : List Instr} {x y : Instance} {rs : List Response}
    (h : CommandsOn is x rs y) {s : State} (hwf : tableWf 0 s.instances = true)
    (he : instanceExists s.sel = true) (hx : s.inst s.sel = x) :
    ∃ u, execAll is s = .next u ∧ u.instances = storeInstance s.sel y s.instances ∧
      u.responses = s.responses ++ rs.map fun r => ⟨s.sel, r⟩ := by
  induction h generalizing s with
  | nil x => exact ⟨s, rfl, by rw [← hx, storeInstance_inst hwf he], by simp⟩
  | @cons i is x y z r rs hi _ ih =>
    obtain ⟨u, hu, hinst, hresp⟩ := ih (s := s.after r y) (State.after_tableWf hwf he) he
      (State.after_inst_same hwf)
    refine ⟨u, ?_, ?_, ?_⟩
    · rw [execAll_cons_of_exec (exec_of_commandOn he (hx ▸ hi)), hu]
    · rw [hinst, State.after_instances, State.after_sel, storeInstance_storeInstance y z hwf he]
    · rw [hresp, State.after_responses, State.after_sel, List.map_cons, List.append_assoc]
      rfl

/-! ### CTR -/

theorem ctrByte_ready {x : Instance} {rk : List Word} {nr : BitVec 4}
    (h : ∃ cb off, x.CtrReady rk nr cb off) (p : Byte) :
    ∃ c y, ctrByte x p = .ok (c, y) ∧ ∃ cb off, y.CtrReady rk nr cb off := by
  obtain ⟨cb, off, hc, hv, heng, hrk, hnr, hcb, hoff, hks⟩ := h
  by_cases h0 : off = 0
  · subst h0
    exact ⟨_, _, ctrByte_start hoff hrk hnr hcb p, _, _, hc, hv, heng, hrk, hnr, rfl, rfl,
      fun _ => ⟨_, rfl⟩⟩
  · obtain ⟨ks, hks⟩ := hks h0
    exact ⟨_, _, ctrByte_mid hoff h0 hks p, _, _, hc, hv, heng, hrk, hnr, hcb, rfl,
      fun _ => ⟨ks, hks⟩⟩

theorem ctrStream_ready {x : Instance} {rk : List Word} {nr : BitVec 4}
    (h : ∃ cb off, x.CtrReady rk nr cb off) (data : List Byte) :
    ∃ out y, ctrStream x data = .ok (out, y) ∧ ∃ cb off, y.CtrReady rk nr cb off := by
  induction data generalizing x with
  | nil => exact ⟨[], x, rfl, h⟩
  | cons p rest ih =>
    obtain ⟨c, y, hbyte, hy⟩ := ctrByte_ready h p
    obtain ⟨out, z, hrest, hz⟩ := ih hy
    exact ⟨c :: out, z, ctrStream_cons_ok.mpr ⟨c, y, out, hbyte, hrest, rfl⟩, hz⟩

theorem commandOn_crypt_ctr {x y : Instance} {rk : List Word} {nr : BitVec 4}
    (h : ∃ cb off, x.CtrReady rk nr cb off) {cap : BitVec 64} {data out : List Byte}
    (hcap : data.length ≤ cap.toNat) (hstream : ctrStream x data = .ok (out, y)) :
    commandOn (.crypt cap data) x = .ok (respondOk out, y) := by
  obtain ⟨cb, off, hready⟩ := h
  exact (cryptOn_ctrReady hready cap data).trans (cryptCtr_of_ctrStream hcap hstream)

/-- CRYPTs of chunks are the stream of the whole. -/
theorem commandsOn_ctr {x : Instance} {rk : List Word} {nr : BitVec 4}
    (h : ∃ cb off, x.CtrReady rk nr cb off) (chunks : List (BitVec 64 × List Byte))
    (hcap : ∀ c ∈ chunks, c.2.length ≤ c.1.toNat) :
    ∃ (outs : List (List Byte)) (y : Instance),
      ctrStream x (chunks.map Prod.snd).flatten = .ok (outs.flatten, y) ∧
      CommandsOn (chunks.map fun c => .crypt c.1 c.2) x (outs.map respondOk) y := by
  induction chunks generalizing x with
  | nil => exact ⟨[], x, rfl, .nil x⟩
  | cons chunk chunks ih =>
    obtain ⟨hhead, htail⟩ := List.forall_mem_cons.mp hcap
    obtain ⟨out, y, hstream, hy⟩ := ctrStream_ready h chunk.2
    obtain ⟨outs, z, hrest, hcommands⟩ := ih hy htail
    exact ⟨out :: outs, z, ctrStream_append_ok hstream hrest,
      .cons (commandOn_crypt_ctr h hhead hstream) hcommands⟩

/-- Settles O29: the chunks' CRYPTs and the one CRYPT run the same stream (`commandsOn_ctr`). -/
theorem ctrStreamingProperty : Obligations.CtrStreamingProperty := by
  intro s chunks cap rk nr cb off hinv he hready hcaps hcap
  have h : ∃ cb off, (s.inst s.sel).CtrReady rk nr cb off := ⟨cb, off, hready⟩
  obtain ⟨outs, y, hstream, hcommands⟩ := commandsOn_ctr h chunks hcaps
  obtain ⟨u, hu, hinst, hresp⟩ := execAll_of_commandsOn hcommands hinv.1 he rfl
  refine ⟨_, u, outs, exec_of_commandOn he (commandOn_crypt_ctr h hcap hstream), hu, hinst.symm,
    rfl, ?_⟩
  rw [hresp, List.map_map]
  rfl

/-- `CRYPT data=<d>` for each piece in order, as the host issues them for a sample. -/
theorem commandsOn_pseudoCrypt_ctr {x : Instance} {rk : List Word} {nr : BitVec 4}
    (h : ∃ cb off, x.CtrReady rk nr cb off) {pieces : List (List Byte)}
    (hlen : ∀ d ∈ pieces, d.length < 2 ^ 63) :
    ∃ (outs : List (List Byte)) (y : Instance), ctrStream x pieces.flatten = .ok (outs.flatten, y) ∧
      CommandsOn (pieces.map pseudoCrypt) x (outs.map respondOk) y := by
  have hcaps : ∀ c ∈ pieces.map fun d => (BitVec.ofNat 64 (d.length + 16), d),
      c.2.length ≤ c.1.toNat := by
    intro c hmem
    obtain ⟨d, hd, rfl⟩ := List.mem_map.mp hmem
    dsimp only
    rw [toNat_pseudoCrypt_capacity (hlen d hd)]
    omega
  have hstream := commandsOn_ctr h _ hcaps
  have hdata : (Prod.snd ∘ fun d : List Byte => (BitVec.ofNat 64 (d.length + 16), d)) = id := rfl
  rwa [List.map_map, List.map_map, hdata, List.map_id] at hstream

theorem setIv_ctr_ready {x : Instance} {rk : List Word} {nr : BitVec 4} {iv : List Byte}
    (hc : x.configured = true) (heng : x.eng = some .ctr) (hrk : x.rk = some rk)
    (hnr : x.nr = some nr) (hmin : 1 ≤ iv.length) (hmax : iv.length ≤ 16) :
    ∃ y, commandOn (.setIv iv) x = .ok (respondOk [], y) ∧ ∃ cb off, y.CtrReady rk nr cb off :=
  ⟨_, setIvOn_of_setIvCore hc hmin hmax (setIvCore_ctr heng),
    pad16 iv, 0, hc, rfl, heng, hrk, hnr, rfl, rfl, fun h0 => absurd rfl h0⟩

theorem setIv_cbc_ready {x : Instance} {pad : Padding} {rk : List Word} {nr : BitVec 4}
    {iv : List Byte} (hc : x.configured = true) (heng : x.eng = some .cbc) (hpad : x.pad = some pad)
    (hpers : x.pers = some .persistAcrossCalls) (hrk : x.rk = some rk) (hnr : x.nr = some nr)
    (hmin : 1 ≤ iv.length) (hmax : iv.length ≤ 16) :
    ∃ y, commandOn (.setIv iv) x = .ok (respondOk [], y) ∧ y.CbcReady pad rk nr (pad16 iv) ∧
      y.pers = some .persistAcrossCalls :=
  ⟨_, setIvOn_of_setIvCore hc hmin hmax (setIvCore_cbc heng),
    ⟨hc, rfl, heng, hpad, hrk, hnr, .inr ⟨hpers, rfl⟩⟩, hpers⟩

theorem length_lt_of_mem_cipherSpansFrom {sample span : List Byte} {off : Nat}
    {es : List SubsampleEntry} (h : span ∈ cipherSpansFrom sample off es) :
    span.length < 2 ^ 32 := by
  induction es generalizing off with
  | nil => cases h
  | cons e es ih =>
    rw [cipherSpansFrom, List.mem_cons] at h
    obtain rfl | h := h
    · exact (List.length_take_le _ _).trans_lt e.cipherBytes.isLt
    · exact ih h

/-- Settles O57: after SET_IV the nonzero spans are chunks of the cipher stream
(`commandsOn_pseudoCrypt_ctr`). -/
theorem cencSpansAreOneLogicalStream : Obligations.CencSpansAreOneLogicalStream := by
  intro m sample s cap rk nr x hinv he hc heng hrk hnr hmeta hcap
  obtain ⟨hmin, hmax⟩ := iv_length_of_metaValid hmeta
  obtain ⟨x', hsetIv, hready⟩ := setIv_ctr_ready hc heng hrk hnr hmin hmax
  obtain ⟨outs, y, hstream, hcommands⟩ := commandsOn_pseudoCrypt_ctr hready
    (pieces := nonzeroSpans m sample) fun d hd =>
      (length_lt_of_mem_cipherSpansFrom (List.mem_of_mem_filter hd)).trans (by decide)
  rw [show (nonzeroSpans m sample).flatten = cipherStream m sample from
    List.flatten_filter_not_isEmpty] at hstream
  obtain ⟨t, ht, htinst, htresp⟩ := execAll_of_commandsOn
    (.cons hsetIv (.cons (commandOn_crypt_ctr hready hcap hstream) (.nil y))) hinv.1 he rfl
  obtain ⟨u, hu, huinst, huresp⟩ := execAll_of_commandsOn (.cons hsetIv hcommands) hinv.1 he rfl
  refine ⟨t, u, outs.flatten, outs, ht, hu, htinst.trans huinst.symm, htresp, ?_, rfl⟩
  rw [huresp, List.map_cons, List.map_map]
  rfl

/-! ### CBC -/

theorem commandOn_pseudoCrypt_cbc {x : Instance} {rk : List Word} {nr : BitVec 4} {start : Block}
    (h : x.CbcReady .none rk nr start) {data : List Byte} (hlen : data.length < 2 ^ 63) :
    commandOn (pseudoCrypt data) x = .ok (respondOk (cbcOutput rk nr start data),
      { x with cv := some (cbcEnd rk nr start data) }) :=
  cryptOn_cbc_none h (by rw [toNat_pseudoCrypt_capacity hlen]; omega)

/-- CRYPTs of runs of whole blocks are the chain of the joined runs. -/
theorem commandsOn_cbc {x : Instance} {rk : List Word} {nr : BitVec 4} {start : Block}
    (h : x.CbcReady .none rk nr start) (hp : x.pers = some .persistAcrossCalls)
    {runs : List (List Byte)} (hwhole : ∀ run ∈ runs, run.length % 16 = 0)
    (hlen : ∀ run ∈ runs, run.length < 2 ^ 63) :
    ∃ (outs : List (List Byte)) (y : Instance),
      CommandsOn (runs.map pseudoCrypt) x (outs.map respondOk) y ∧
      outs.flatten = cbcOutput rk nr start runs.flatten := by
  induction runs generalizing x start with
  | nil => exact ⟨[], x, .nil x, rfl⟩
  | cons run runs ih =>
    obtain ⟨hw, hws⟩ := List.forall_mem_cons.mp hwhole
    obtain ⟨hl, hls⟩ := List.forall_mem_cons.mp hlen
    obtain ⟨outs, y, hcommands, hout⟩ := ih (h.of_persist hp (cbcEnd rk nr start run)) hp hws hls
    refine ⟨cbcOutput rk nr start run :: outs, y,
      .cons (commandOn_pseudoCrypt_cbc h hl) hcommands, ?_⟩
    rw [List.flatten_cons, List.flatten_cons, cbcOutput_append rk nr start hw, hout]

theorem flatten_length_mod_eq_zero {runs : List (List Byte)}
    (h : ∀ run ∈ runs, run.length % 16 = 0) :
    runs.flatten.length % 16 = 0 := by
  induction runs with
  | nil => rfl
  | cons run runs ih =>
    obtain ⟨hhead, htail⟩ := List.forall_mem_cons.mp h
    rw [List.flatten_cons, List.length_append, Nat.add_mod, hhead, ih htail]

/-! ### How long a run can be -/

theorem addBlock_data_flatten (encrypted : Bool) (block : List Byte) (segs : List Segment) :
    ((addBlock encrypted block segs).map Segment.data).flatten =
      block ++ (segs.map Segment.data).flatten := by
  cases segs with
  | nil => rfl
  | cons seg segs =>
    rw [addBlock]
    split_ifs
    · simp only [List.map_cons, List.flatten_cons, List.append_assoc]
    · rfl

theorem segmentsFrom_data_flatten (reading : PatternReading) (n m k : Nat)
    (blocks : List (List Byte)) :
    ((segmentsFrom reading n m k blocks).map Segment.data).flatten = blocks.flatten := by
  induction blocks generalizing k with
  | nil => rfl
  | cons block blocks ih => rw [segmentsFrom, addBlock_data_flatten, ih, List.flatten_cons]

theorem splitBlocks_flatten_length_le (n : Nat) (stream : List Byte) :
    (splitBlocks n stream).flatten.length ≤ stream.length := by
  induction n generalizing stream with
  | zero => exact Nat.zero_le _
  | succ n ih =>
    rw [splitBlocks]
    split_ifs
    · exact Nat.zero_le _
    · have hrest := ih (stream.drop 16)
      rw [List.length_drop] at hrest
      rw [List.flatten_cons, List.length_append, List.length_take]
      omega

theorem length_le_of_mem_flatten {l : List Byte} {ls : List (List Byte)} (h : l ∈ ls) :
    l.length ≤ ls.flatten.length :=
  (List.sublist_flatten_of_mem h).length_le

theorem length_le_of_mem_encryptedRuns {reading : PatternReading} {m : SampleMeta}
    {sample run : List Byte} (h : run ∈ encryptedRuns reading m sample) :
    run.length ≤ (cipherStream m sample).length := by
  obtain ⟨seg, hseg, rfl⟩ := List.mem_map.mp h
  obtain ⟨stream, hstream, hmem⟩ := List.mem_flatMap.mp (List.mem_of_mem_filter hseg)
  have hstreamLen : stream.length ≤ (cipherStream m sample).length := by
    split_ifs at hstream
    · exact length_le_of_mem_flatten hstream
    · rw [List.mem_singleton.mp hstream]
  have hsegLen := length_le_of_mem_flatten (List.mem_map_of_mem (f := Segment.data) hmem)
  rw [segmentsFrom_data_flatten] at hsegLen
  exact (hsegLen.trans (splitBlocks_flatten_length_le _ _)).trans hstreamLen

theorem cipherStream_length_lt {m : SampleMeta} {sample : List Byte}
    (h : metaValid m sample.length = true) : (cipherStream m sample).length < 2 ^ 63 := by
  have hsum : (m.subsamples.map fun e => e.cipherBytes.toNat).sum ≤
      m.subsamples.length * 2 ^ 32 := by
    rw [← List.length_map (as := m.subsamples) fun e => e.cipherBytes.toNat]
    refine List.sum_le_card_nsmul _ _ fun n hn => ?_
    obtain ⟨e, _, rfl⟩ := List.mem_map.mp hn
    exact e.cipherBytes.isLt.le
  have hcount := subsamples_length_of_metaValid h
  rw [cipherStreamLength m sample h]
  omega

/-- Settles O58: each run goes on from the last block of the run before it (`commandsOn_cbc`), and
the runs are whole blocks, so the chain has no tail. -/
theorem cbcsRunsAreOneChain : Obligations.CbcsRunsAreOneChain := by
  intro reading m sample s rk nr x runs hinv he hc heng hpad hpers hrk hnr hmeta hwhole
  obtain ⟨hmin, hmax⟩ := iv_length_of_metaValid hmeta
  obtain ⟨x', hsetIv, hready, hpers'⟩ := setIv_cbc_ready hc heng hpad hpers hrk hnr hmin hmax
  obtain ⟨outs, y, hcommands, hout⟩ := commandsOn_cbc hready hpers' hwhole fun run hrun =>
    (length_le_of_mem_encryptedRuns hrun).trans_lt (cipherStream_length_lt hmeta)
  obtain ⟨t, ht, _, hresp⟩ := execAll_of_commandsOn (.cons hsetIv hcommands) hinv.1 he rfl
  refine ⟨t, outs, ht, ?_, ?_⟩
  · rw [hresp, List.map_cons, List.map_map]
    rfl
  · rw [hout, cbcOutput_of_mod_eq_zero _ _ _ (flatten_length_mod_eq_zero hwhole), cbcChain]

end Sys2Proof.Machine
end
